-- ==== Sys2Proof/Word.lean ====
section
/-! DEFINITION. The word of the machine: every operand, result and register is an unsigned 64-bit value
(spec/00_scope.md R7, R10), and a byte lane of the bus carries 8 bits (spec/20_memory.md R64). -/

namespace Sys2Proof

/-- A u64 value (R7, R10). -/
abbrev Word := BitVec 64

/-- One byte lane of the bus (R64). -/
abbrev Byte := BitVec 8

end Sys2Proof
end

