-- ==== Sys2Proof/Config.lean ====
section
/-! DEFINITION. What the platform fixes (spec/00_scope.md R9) and the contract of the external inverse unit
(R13, spec/60_exceptions.md R223). LATENCY and INV_LATENCY have no constant: every interleaving of the
events in `State.inputs` is a run of the model (R250). -/

namespace Sys2Proof.Config

/-- BASE_ADDR in units of 8 bytes: left to the platform (R9, R72, D5), so it has no value here. -/
opaque baseUnits : Nat

/-- BASE_ADDR, the bus address of offset 0; it is 8-aligned (D5). -/
def baseAddr : Nat := 8 * baseUnits

/-- The bus address of an offset from BASE_ADDR. -/
def busAddr (off : Int) : Int := (baseAddr : Int) + off

/-- The size of the register window in bytes (R30, R60). -/
def windowBytes : Int := 0x80

/-- The bytes a legal access moves (R62). -/
def accessBytes : Nat := 8

/-- The bound on the iterations of an exponentiation loop: the width of the exponent (R141). -/
def loopBound : Nat := 64

/-- The contract of the inverse unit, the named assumption I3: `v` is `INV64(n)` (R13, R223). -/
abbrev InvContract (n v : Word) : Prop := (n.toNat * v.toNat) % 2 ^ 64 = 1

end Sys2Proof.Config
end

