-- ==== Sys2Proof/Syntax.lean ====
section
/-! DEFINITION. The command set: one constructor per row of spec/opcode_table.json, in the table's order.
No command carries an operand field: operands come from fixed registers (spec/30_encoding.md R83). -/

namespace Sys2Proof

/-- The seven commands (spec/00_scope.md R4, spec/30_encoding.md R81). -/
inductive Instr where
  /-- TO_MONT (R100). -/
  | toMont
  /-- FROM_MONT (R104). -/
  | fromMont
  /-- MONT_MUL (R121). -/
  | montMul
  /-- MONT_POW (R142). -/
  | montPow
  /-- GEN_POW (R162). -/
  | genPow
  /-- POW_MOD_ODD (R182). -/
  | powModOdd
  /-- POW_MOD (R185). -/
  | powMod
  deriving DecidableEq, Repr

end Sys2Proof
end

