-- ==== Sys2Proof/WellFormed.lean ====
section
/-! DEFINITION. Which terms are well formed. A command has no operand field that could be out of range (R83),
so the check that can fail is the one of the command WORD (spec/30_encoding.md R82, R84). -/

namespace Sys2Proof

/-- A command is well formed: it carries no field (R83), so there is nothing to refuse. -/
def Instr.wellFormed : Instr → Bool
  | .toMont => true
  | .fromMont => true
  | .montMul => true
  | .montPow => true
  | .genPow => true
  | .powModOdd => true
  | .powMod => true

/-- RSV, `bits[63:4]` of the word, is 0 (R80). -/
def rsvIsZero (v : Word) : Bool := v.toNat / 2 ^ 4 == 0

/-- `1 <= OP <= 7` for OP = `bits[3:0]` of the word (R82). -/
def opIsCommand (v : Word) : Bool := 1 ≤ v.toNat % 2 ^ 4 && v.toNat % 2 ^ 4 ≤ 7

/-- A command word is legal (R82). -/
def wordLegal (v : Word) : Bool := rsvIsZero v && opIsCommand v

end Sys2Proof
end

