-- ==== Sys2Proof/Decode.lean ====
section
/-! DEFINITION. Byte lanes, the decoder of command words, total on any bytes and rejecting by name, and the
encoder, all from spec/30_encoding.md R80 to R85 and the byte order of spec/20_memory.md R64. -/

namespace Sys2Proof

/-! ### Byte lanes (R64) -/

/-- The low `k` bytes of `v`, lane 0 first: lane `i` carries `bits[8i+7 : 8i]` (R64). -/
def lanesOfNat : Nat → Nat → List Byte
  | 0, _ => []
  | k + 1, v => BitVec.ofNat 8 v :: lanesOfNat k (v / 2 ^ 8)

/-- The value that byte lanes carry, lane 0 lowest (R64). -/
def natOfLanes : List Byte → Nat
  | [] => 0
  | b :: bs => b.toNat + 2 ^ 8 * natOfLanes bs

/-- The 8 byte lanes of a register value (R64). -/
def toLanes (v : Word) : List Byte := lanesOfNat 8 v.toNat

/-- The register value that 8 byte lanes carry (R64). -/
def ofLanes (bs : List Byte) : Word := BitVec.ofNat 64 (natOfLanes bs)

/-! ### Decoding (R80 to R82) -/

/-- OP, `bits[3:0]` of a command word (R80). -/
def opField (v : Word) : BitVec 4 := BitVec.ofNat 4 v.toNat

/-- Why bytes are no command; the write that carries them is refused as R214 says (or, for the length,
is no legal access, R62). -/
inductive DecodeError where
  /-- A command is one 8-byte write (R85); `n` bytes are none. -/
  | badLength (n : Nat)
  /-- RSV is not 0 (R84). -/
  | reservedBits
  /-- OP is 0 or 8 to 15 (R84). -/
  | reservedOp (op : BitVec 4)
  deriving DecidableEq, Repr

/-- The opcode map (R81); none for the reserved opcodes 0 and 8 to 15. -/
def decodeOp (op : BitVec 4) : Option Instr :=
  match op.toNat with
  | 1 => some .toMont
  | 2 => some .fromMont
  | 3 => some .montMul
  | 4 => some .montPow
  | 5 => some .genPow
  | 6 => some .powModOdd
  | 7 => some .powMod
  | _ => none

/-- The command a word selects, or why it is illegal (R82, R84). -/
def decodeWord (v : Word) : Except DecodeError Instr :=
  if rsvIsZero v then
    match decodeOp (opField v) with
    | some i => .ok i
    | none => .error (.reservedOp (opField v))
  else .error .reservedBits

/-- The decoder on bytes, lane 0 first. -/
def decode (bs : List Byte) : Except DecodeError Instr :=
  if bs.length = 8 then decodeWord (ofLanes bs) else .error (.badLength bs.length)

/-! ### Encoding (R81) -/

/-- The opcode of a command (R81). -/
def encodeOp : Instr → BitVec 4
  | .toMont => 0x1
  | .fromMont => 0x2
  | .montMul => 0x3
  | .montPow => 0x4
  | .genPow => 0x5
  | .powModOdd => 0x6
  | .powMod => 0x7

/-- The command word of a command: RSV is 0 (R80, R81). -/
def encodeWord (i : Instr) : Word := (encodeOp i).setWidth 64

/-- The bytes of a command word as the bus carries them (R64). -/
def encode (i : Instr) : List Byte := toLanes (encodeWord i)

/-- The byte lanes of a word of the opcode table: `nbits` bits, zero above, 8 lanes at least. -/
def tableLanes (nbits w : Nat) : List Byte := lanesOfNat (max 8 ((nbits + 7) / 8)) (w % 2 ^ nbits)

/-- The host's view of the decoder: the bits of an opcode-table row laid out as bytes and decoded. -/
def decodeTableWord (nbits w : Nat) : Option Instr :=
  match decode (tableLanes nbits w) with
  | .ok i => some i
  | .error _ => none

end Sys2Proof
end

