-- ==== Sys2Proof/Machine/State.lean ====
section
/-! DEFINITION. What MONTCORE holds (spec/10_state.md), the events that reach it from outside
(spec/60_exceptions.md, spec/70_reset_and_hazards.md), the reasons a step can stop, and the state after reset. -/

namespace Sys2Proof.Machine

/-- The registers of the window, by what an offset selects (R30); `reserved` is every offset 0x48 to 0x78. -/
inductive Reg where
  | cmd | status | a | b | e | n | ninv | rmodn | res | reserved
  deriving DecidableEq, Repr

/-- What a bus access moves: a read of so many bytes, or a write of these byte lanes, lane 0 first (R62, R64). -/
inductive Transfer where
  | read (bytes : Nat)
  | write (lanes : List Byte)
  deriving DecidableEq, Repr

/-- A bus access that the platform routes to MONTCORE (R60, R62). -/
structure Access where
  /-- Which master issues it; MONTCORE never looks at it (R69, R226), the response goes back to it. -/
  master : Nat
  /-- The offset from BASE_ADDR (R61). -/
  off : Int
  /-- The access is a burst, which R62 refuses whatever it moves. -/
  burst : Bool
  transfer : Transfer
  deriving DecidableEq, Repr

/-- An event from outside, or the engine's turn, in the single total order of R66 and R217. -/
inductive Input where
  /-- A bus access (R61). -/
  | bus (acc : Access)
  /-- The engine takes its turn here: its LATENCY is over, or it gets to the inverse port (R216, R222, R250). -/
  | engine
  /-- `INV_RSP(v)`, the inverse unit's answer to the request numbered `req` (R222). -/
  | invRsp (req : Nat) (v : Word)
  /-- The reset input is asserted (R240). -/
  | resetAssert
  /-- The reset input is released (R240). -/
  | resetRelease
  deriving DecidableEq, Repr

/-- The response of a bus access (R61, R213). -/
inductive Answer where
  /-- A legal read: the 8 byte lanes of the value. -/
  | data (lanes : List Byte)
  /-- A legal write: the normal response, also where the write is ignored, dropped or refused (R214, R215). -/
  | normal
  /-- `raise BusError(addr)` (R213). -/
  | busError (addr : Int)
  deriving DecidableEq, Repr

/-- A response and the master it goes to. -/
structure Reply where
  master : Nat
  answer : Answer
  deriving DecidableEq, Repr

/-- `w.phase` (R40). -/
inductive Phase where
  | idle | busy
  deriving DecidableEq, Repr

/-- The hidden working registers that no bus access can read (R40). -/
structure Work where
  res : Word
  sq : Word
  f : Word
  iter : BitVec 7
  ctxR : Word
  ctxInv : Word
  r1 : Word
  r2 : Word
  k : Word
  m : Word
  deriving DecidableEq, Repr

/-- What a command's rule ends in (R216): its result, or the wait for `INV64(m)` (R222). -/
inductive RuleOutcome where
  /-- `return v`; `fill` is the value TO_MONT puts into RMODN (R100); `w` are the working registers left. -/
  | value (v : Word) (fill : Option Word) (w : Work)
  /-- The rule needs the inverse of `m`, and the inverse unit has not answered. -/
  | needsInverse (m : Word)
  deriving DecidableEq, Repr

/-- The state of MONTCORE and of its borders. -/
structure State where
  /-- Register A (R31). -/
  a : Word
  /-- Register B (R31). -/
  b : Word
  /-- Register E (R31). -/
  e : Word
  /-- Register N (R31). -/
  n : Word
  /-- Register NINV (R32). -/
  ninv : Word
  /-- Register RMODN, operand and cache cell (R36). -/
  rmodn : Word
  /-- Register RES (R33). -/
  res : Word
  /-- STATUS.DONE (R38). -/
  done : Bool
  /-- STATUS.ILLEGAL (R39). -/
  illegal : Bool
  /-- STATUS.COLLISION (R39). -/
  collision : Bool
  /-- `w.phase`, and with it STATUS.BUSY, which always equals it (R37, R40). -/
  phase : Phase
  /-- `w.op` (R40). -/
  op : BitVec 4
  /-- `w.inv_pending` (R40, R222). -/
  invPending : Bool
  /-- The hidden working registers (R40). -/
  w : Work
  /-- The inverse unit's answer, from its arrival to the completion (R216). -/
  invAnswer : Option Word
  /-- The value of the last `INV_REQ(n)` on the port (R222). -/
  invArg : Word
  /-- How many requests the engine has sent: the number of the last one (log entry 8). -/
  invReqs : Nat
  /-- The reset input is asserted (R240). -/
  resetHeld : Bool
  /-- The response of the last bus access (R61, R213). -/
  reply : Option Reply
  /-- The events still to come, in the single total order of R66 and R217. -/
  inputs : List Input
  deriving DecidableEq, Repr

/-- Why the machine stops with a fault. -/
inductive Fault where
  /-- Raised by the engine's turn when BUSY is 1 and `w.op` is no command's opcode. No run reaches it: the accept
  step stores only legal opcodes (R215). SAFE: the model stops where no rule says anything. -/
  | noCommandInFlight (op : BitVec 4)
  deriving DecidableEq, Repr

/-- Why the model gives a step no meaning. -/
inductive Refusal where
  /-- Raised by an arm of `exec` whose instruction has no meaning yet; there is none. SAFE. -/
  | notModelled (mnemonic : String)
  /-- Raised by a bus access while the reset input is asserted: outside the spec, treatment "refuse"
  (R240, spec/93_implementation_defined.md I9). SAFE. -/
  | busDuringReset
  deriving DecidableEq, Repr

/-- The working registers after reset: the spec leaves them unspecified and a model may pick any value
(R44, D13, I6). DESIGN CHOICE: 0 (log entry 5). -/
def Work.reset : Work :=
  { res := 0, sq := 0, f := 0, iter := 0, ctxR := 0, ctxInv := 0, r1 := 0, r2 := 0, k := 0, m := 0 }

/-- The machine right after reset (R44, R240), with no event waiting. -/
def State.reset : State :=
  { a := 0, b := 0, e := 0, n := 0, ninv := 0, rmodn := 0, res := 0
    done := false, illegal := false, collision := false
    phase := .idle, op := 0, invPending := false
    w := Work.reset
    invAnswer := none, invArg := 0, invReqs := 0
    resetHeld := false, reply := none, inputs := [] }

end Sys2Proof.Machine
end

