-- ==== Sys2Proof/Machine/Operands.lean ====
section
/-! DEFINITION. The sentinel conditions on operands (spec/60_exceptions.md R211), and which inverse a command asks
for (spec/44_dispatch.md R183). Operands are whole registers, with no forms (spec/30_encoding.md R83). -/

namespace Sys2Proof.Machine

/-- S1: `N < 2` (R211). -/
abbrev TooSmall (n : Word) : Prop := n.toNat < 2

/-- S2: `N` even (R211). -/
abbrev EvenModulus (n : Word) : Prop := n.toNat % 2 = 0

/-- S3: `A < 2` (R211). -/
abbrev FixedPoint (a : Word) : Prop := a.toNat < 2

/-- `ctz(v)` by looking at the lowest bit, at most `fuel` times (R12). -/
def ctzNat : Nat → Nat → Nat
  | 0, _ => 0
  | fuel + 1, v => if v % 2 = 1 then 0 else 1 + ctzNat fuel (v / 2)

/-- `ctz(n)`, the number of trailing zero bits of `n > 0` (R12). -/
def ctz (n : Word) : Nat := ctzNat 64 n.toNat

/-- `m = n >> ctz(n)`, the odd part of `n` (R186). -/
def oddPart (n : Word) : Word := n >>> ctz n

/-- `bits[i]` of a word as R10 writes it. -/
def bit (v : Word) (i : Nat) : Bool := v.getLsbD i

/-- The value whose inverse a command asks the inverse unit for, from its operands A and N; none where the command asks
for no inverse: the table of R183. -/
def inverseArg (i : Instr) (a n : Word) : Option Word :=
  match i with
  | .powModOdd => if n.toNat % 2 = 1 ∧ 3 ≤ n.toNat ∧ 2 ≤ a.toNat then some n else none
  | .powMod =>
    if n.toNat % 2 = 1 ∧ 3 ≤ n.toNat ∧ 2 ≤ a.toNat then some n
    else if n.toNat % 2 = 0 ∧ 2 ≤ n.toNat ∧ 2 ≤ a.toNat then some (oddPart n)
    else none
  | .toMont | .fromMont | .montMul | .montPow | .genPow => none

end Sys2Proof.Machine
end

