-- ==== Sys2Proof/Machine/Datapath.lean ====
section
/-! DEFINITION. The datapath shared by the commands: the REDC multiplier (spec/41_montgomery_multiply.md R120), the
REDC step of FROM_MONT (spec/40_conversion.md R104), the two exponentiation loops (R140, R160), ODD_CORE,
EVEN_PATH and CRT (spec/44_dispatch.md R180, R186, R187). Sums and products are exact, on natural numbers, and
every wrap is written out, as in the spec's pseudocode (R10, R11). -/

namespace Sys2Proof.Machine

/-- `(-v) mod 2^64` (R10). -/
def neg64 (v : Nat) : Nat := (2 ^ 64 - v % 2 ^ 64) % 2 ^ 64

/-- `R mod n`, the value `2^64 mod n` (R101). -/
def rModN (n : Word) : Word := BitVec.ofNat 64 (2 ^ 64 % n.toNat)

/-- `(x * y) mod n` by an exact 128-bit product. -/
def mulMod (x y n : Word) : Word := BitVec.ofNat 64 ((x.toNat * y.toNat) % n.toNat)

/-- The upper 64 bits of the 128-bit sum `p + m*n`, corrected by adding `rmodn` if the sum carries out of
128 bits (R104, R120); `m` is `(-p * ninv) mod 2^64`. -/
def redc (p : Nat) (n ninv rmodn : Word) : Word :=
  let m := (neg64 p * ninv.toNat) % 2 ^ 64
  let s := p + m * n.toNat
  let hi := s / 2 ^ 64 % 2 ^ 64
  if 2 ^ 128 ≤ s then BitVec.ofNat 64 (hi + rmodn.toNat) else BitVec.ofNat 64 hi

/-- `REDC_MUL(x, y, n, ninv, rmodn)` (R120). -/
def redcMul (x y n ninv rmodn : Word) : Word := redc (x.toNat * y.toNat) n ninv rmodn

/-- FROM_MONT past its guard: one REDC step of `ar`, reduced mod `n` (R104). -/
def redcReduce (ar n ninv rmodn : Word) : Word :=
  BitVec.ofNat 64 ((redc ar.toNat n ninv rmodn).toNat % n.toNat)

/-- The loop of R140 and R160, low bit first, for a multiplier `mul`: it stops when the shifted exponent is 0.
The fuel is the width of the exponent, which is never used up (R141). -/
def powLoop (mul : Word → Word → Word) : Nat → Work → Work
  | 0, w => w
  | fuel + 1, w =>
    let w := { w with
      iter := w.iter + 1
      res := if bit w.f 0 then mul w.res w.sq else w.res
      f := w.f >>> 1 }
    if w.f = 0 then w else powLoop mul fuel { w with sq := mul w.sq w.sq }

/-- `MONT_POW_CORE(ar, e, n, ninv, rmodn)` (R140): the value and the working registers it leaves. -/
def montPowCore (ar e n ninv rmodn : Word) (w : Work) : Word × Work :=
  let w := powLoop (fun x y => redcMul x y n ninv rmodn) Config.loopBound
    { w with res := rmodn, sq := ar, f := e, iter := 0 }
  (BitVec.ofNat 64 (w.res.toNat % n.toNat), w)

/-- The width of the product accumulator: 64 bits when `n <= 2^32 - 1`, else 128 (R161). -/
def tierBits (n : Word) : Nat := if n.toNat ≤ 2 ^ 32 - 1 then 64 else 128

/-- A product in the tier's accumulator, then reduced mod `n` (R160, R161). -/
def tierMul (n x y : Word) : Word :=
  BitVec.ofNat 64 ((x.toNat * y.toNat) % 2 ^ tierBits n % n.toNat)

/-- `POW_CORE(x, e, n)`, for `n >= 2` (R160): the value and the working registers it leaves. -/
def powCore (x e n : Word) (w : Work) : Word × Work :=
  let w := powLoop (tierMul n) Config.loopBound
    { w with res := 1, sq := BitVec.ofNat 64 (x.toNat % n.toNat), f := e, iter := 0 }
  (w.res, w)

/-- `ODD_CORE(a, e, n, inv)`, for odd `n >= 3` (R180): TO_MONT with an empty cache, MONT_POW_CORE, and the REDC
step of FROM_MONT, in the internal context. -/
def oddCore (a e n inv : Word) (w : Work) : Word × Work :=
  let w := { w with ctxR := rModN n, ctxInv := inv }
  let ar := mulMod a w.ctxR n
  let (t, w) := montPowCore ar e n w.ctxInv w.ctxR w
  let m0 := (neg64 t.toNat * w.ctxInv.toNat) % 2 ^ 64
  (BitVec.ofNat 64 ((t.toNat + m0 * n.toNat) / 2 ^ 64 % n.toNat), w)

/-- `CRT(r1, r2, m, p, inv)` (R187); `%` on integers with a positive divisor is R11's `mod`. -/
def crt (r1 r2 m p inv : Word) : Word :=
  let minv := inv.toNat % p.toNat
  let d := (((r2.toNat : Int) - (r1.toNat : Int)) % (p.toNat : Int)).toNat
  let x := (d * minv) % p.toNat
  BitVec.ofNat 64 (r1.toNat + x * m.toNat)

/-- `e2` of R186: the exponent of the power-of-two factor. -/
def evenExponent (a e : Word) (k : Nat) : Word :=
  if a.toNat % 2 = 1 then BitVec.ofNat 64 (e.toNat % 2 ^ (k - 1)) else e

/-- `EVEN_PATH(a, e, n)` with the answer `inv` to the request for `INV64(m)` (R186). -/
def evenPath (a e n inv : Word) (w : Work) : Word × Work :=
  let k := ctz n
  let m := oddPart n
  let p := BitVec.ofNat 64 (2 ^ k)
  let w := { w with k := BitVec.ofNat 64 k, m := m }
  let (r1, w) := if m.toNat < 2 then ((0 : Word), w) else oddCore a e m inv w
  let (r2, w) := powCore (BitVec.ofNat 64 (a.toNat % p.toNat)) (evenExponent a e k) p { w with r1 := r1 }
  (crt r1 r2 m p inv, { w with r2 := r2 })

end Sys2Proof.Machine
end

