-- ==== Sys2Proof/Machine/Flags.lean ====
section
/-! DEFINITION. Register STATUS (spec/10_state.md R35). MONTCORE has no arithmetic flags (R42): the only bits a
command or an access sets are these four. -/

namespace Sys2Proof.Machine

/-- STATUS.BUSY (R37): it equals `w.phase` (R40). -/
def State.busy (s : State) : Bool := s.phase == .busy

/-- A bit of STATUS at its place. -/
def bitAt (i : Nat) (b : Bool) : Word := if b then BitVec.ofNat 64 (2 ^ i) else 0

/-- STATUS as a read returns it: BUSY, DONE, ILLEGAL, COLLISION in bits 0 to 3, and 0 in bits 63:4 (R35). -/
def State.status (s : State) : Word :=
  bitAt 0 s.busy ||| bitAt 1 s.done ||| bitAt 2 s.illegal ||| bitAt 3 s.collision

/-- A write of `v` to STATUS: write 1 to clear on bits 1 to 3, nothing else (R35). -/
def State.writeStatus (s : State) (v : Word) : State :=
  { s with
    done := s.done && !v.getLsbD 1
    illegal := s.illegal && !v.getLsbD 2
    collision := s.collision && !v.getLsbD 3 }

end Sys2Proof.Machine
end

