-- ==== Sys2Proof/Machine/Ops.lean ====
section
/-! DEFINITION. The named operations on the state: the register window and the bus (spec/20_memory.md), the command
life cycle and the inverse port (spec/60_exceptions.md), reset (spec/70_reset_and_hazards.md). There is no data
memory (R60) and no exception to take or return from (R210, R219): an illegal access gets `busError`. -/

namespace Sys2Proof.Machine

/-! ### The register window (R30) -/

/-- The register at a legal offset; every offset above RES is reserved (R30, R63). -/
def regAt (off : Int) : Reg :=
  if off = 0x00 then .cmd
  else if off = 0x08 then .status
  else if off = 0x10 then .a
  else if off = 0x18 then .b
  else if off = 0x20 then .e
  else if off = 0x28 then .n
  else if off = 0x30 then .ninv
  else if off = 0x38 then .rmodn
  else if off = 0x40 then .res
  else .reserved

/-- The offset of a register (R30); of the reserved ones, the first. -/
def Reg.off : Reg → Int
  | .cmd => 0x00
  | .status => 0x08
  | .a => 0x10
  | .b => 0x18
  | .e => 0x20
  | .n => 0x28
  | .ninv => 0x30
  | .rmodn => 0x38
  | .res => 0x40
  | .reserved => 0x48

/-- What a legal read returns; CMD and the reserved offsets read as 0 (R34, R61, R63). -/
def State.readReg (s : State) : Reg → Word
  | .cmd => 0
  | .status => s.status
  | .a => s.a
  | .b => s.b
  | .e => s.e
  | .n => s.n
  | .ninv => s.ninv
  | .rmodn => s.rmodn
  | .res => s.res
  | .reserved => 0

/-- The registers whose writes are dropped while BUSY is 1 (R243). -/
def Reg.guarded : Reg → Bool
  | .cmd | .a | .b | .e | .n | .ninv | .rmodn => true
  | .status | .res | .reserved => false

/-! ### The command life cycle (R214, R215, R216) -/

/-- The accept step for opcode `op` (R215). -/
def State.accept (s : State) (op : BitVec 4) : State :=
  { s with op := op, phase := .busy, done := false }

/-- A write of `v` to CMD while BUSY is 0: accepted if the word is legal (R215), else ILLEGAL is set and nothing
else happens (R214). -/
def State.issue (s : State) (v : Word) : State :=
  match decodeWord v with
  | .ok _ => s.accept (opField v)
  | .error _ => { s with illegal := true }

/-- The atomic update of the completion step (R216): `v` goes to RES, `fill`, if any, to RMODN (R100), and `w` are the
working registers the rule leaves. -/
def State.complete (s : State) (v : Word) (fill : Option Word) (w : Work) : State :=
  { s with
    res := v
    rmodn := fill.getD s.rmodn
    phase := .idle
    done := true
    invPending := false
    invAnswer := none
    w := w }

/-- The engine needs `INV64(m)` and has no answer: it sends `INV_REQ(m)`, or, with a request outstanding, waits: at most
one request is outstanding (R222). -/
def State.awaitInverse (s : State) (m : Word) : State :=
  if s.invPending then s else { s with invPending := true, invArg := m, invReqs := s.invReqs + 1 }

/-- What the engine's turn makes of a command's rule: completion (R216), or the wait for the inverse (R222). -/
def State.conclude (s : State) : RuleOutcome → State
  | .value v fill w => s.complete v fill w
  | .needsInverse m => s.awaitInverse m

/-- A rule that uses `INV64(m)`: it goes on with the answer if the inverse unit has answered (R216, R222). -/
def withInverse (m : Word) (answer : Option Word) (k : Word → RuleOutcome) : RuleOutcome :=
  match answer with
  | some inv => k inv
  | none => .needsInverse m

/-- `INV_RSP(v)` for the request numbered `req` (R222): taken if that request is the outstanding one, else ignored, as a
response to a request that a reset abandoned is (R240). -/
def State.inverseResponse (s : State) (req : Nat) (v : Word) : State :=
  if s.invPending && req == s.invReqs then { s with invPending := false, invAnswer := some v } else s

/-! ### Bus accesses (R61, R62, R213, R217, R243) -/

/-- How many bytes an access moves. -/
def Transfer.bytes : Transfer → Nat
  | .read bytes => bytes
  | .write lanes => lanes.length

/-- An access is legal (R62). -/
def Access.legal (acc : Access) : Bool :=
  !acc.burst && acc.transfer.bytes == Config.accessBytes && acc.off % 8 == 0 &&
    (0 ≤ acc.off && acc.off < Config.windowBytes)

/-- The effect of a legal write of `v` on register `r` once the busy check has passed (R61). -/
def State.storeReg (s : State) (r : Reg) (v : Word) : State :=
  match r with
  | .cmd => s.issue v
  | .status => s.writeStatus v
  | .a => { s with a := v }
  | .b => { s with b := v }
  | .e => { s with e := v }
  | .n => { s with n := v }
  | .ninv => { s with ninv := v }
  | .rmodn => { s with rmodn := v }
  | .res => s
  | .reserved => s

/-- A legal write of `v` to register `r`: the busy check comes before the register's own rule (R217, R243). -/
def State.writeReg (s : State) (r : Reg) (v : Word) : State :=
  if r.guarded && s.busy then { s with collision := true } else s.storeReg r v

/-- The response of an access leaves for its master. -/
def State.respond (s : State) (acc : Access) (answer : Answer) : State :=
  { s with reply := some { master := acc.master, answer := answer } }

/-- One bus access: legality first (R62, R213, R217), then a read, which changes no state (R61), or a write. -/
def State.access (s : State) (acc : Access) : State :=
  if acc.legal then
    match acc.transfer with
    | .read _ => s.respond acc (.data (toLanes (s.readReg (regAt acc.off))))
    | .write lanes => (s.writeReg (regAt acc.off) (ofLanes lanes)).respond acc .normal
  else s.respond acc (.busError (Config.busAddr acc.off))

/-- `WR REG, v` (R86): the 8-byte write of `v`, byte lanes as R64 says. -/
def Access.wr (r : Reg) (v : Word) : Access :=
  { master := 0, off := r.off, burst := false, transfer := .write (toLanes v) }

/-- `RD REG` (R86). -/
def Access.rd (r : Reg) : Access :=
  { master := 0, off := r.off, burst := false, transfer := .read 8 }

/-! ### Reset (R240) -/

/-- The reset input is asserted: every piece of state takes its reset value. What is outside MONTCORE stays: the
events still to come, and the count of the requests the inverse unit has got (log entries 8 and 10). -/
def State.assertReset (s : State) : State :=
  { State.reset with resetHeld := true, invReqs := s.invReqs, inputs := s.inputs }

/-- The reset input is released. -/
def State.releaseReset (s : State) : State := { s with resetHeld := false }

end Sys2Proof.Machine
end

