-- ==== Sys2Proof/Machine/Conversion.lean ====
section
/-! DEFINITION. Montgomery-form conversion: TO_MONT and FROM_MONT (spec/40_conversion.md). -/

namespace Sys2Proof.Machine

/-- The rule of TO_MONT (R100): `n = 1` passes the guard, a nonzero cache is used as it stands. -/
def toMontRule (a n c : Word) (w : Work) : RuleOutcome :=
  if n.toNat = 0 ∨ EvenModulus n then .value 0 none w
  else if c = 0 then .value (mulMod a (rModN n) n) (some (rModN n)) w
  else .value (mulMod a c n) none w

/-- TO_MONT (R100). -/
def execToMont (s : State) : Host.Outcome State Fault Refusal :=
  .next (s.conclude (toMontRule s.a s.n s.rmodn s.w))

/-- The rule of FROM_MONT (R104). -/
def fromMontRule (ar n ninv rmodn : Word) (w : Work) : RuleOutcome :=
  if TooSmall n ∨ EvenModulus n then .value 0 none w
  else .value (redcReduce ar n ninv rmodn) none w

/-- FROM_MONT (R104). -/
def execFromMont (s : State) : Host.Outcome State Fault Refusal :=
  .next (s.conclude (fromMontRule s.a s.n s.ninv s.rmodn s.w))

end Sys2Proof.Machine
end

