-- ==== Sys2Proof/Machine/GenPow.lean ====
section
/-! DEFINITION. General modular exponentiation: GEN_POW (spec/43_general_pow.md). -/

namespace Sys2Proof.Machine

/-- The rule of GEN_POW (R162): the shortcut looks at `a`, not at `a mod n`, and does not consult `e`. -/
def genPowRule (a e n : Word) (w : Work) : RuleOutcome :=
  if TooSmall n then .value 0 none w
  else if FixedPoint a then .value a none w
  else
    let (v, w) := powCore a e n w
    .value v none w

/-- GEN_POW (R162). -/
def execGenPow (s : State) : Host.Outcome State Fault Refusal :=
  .next (s.conclude (genPowRule s.a s.e s.n s.w))

end Sys2Proof.Machine
end

