-- ==== Sys2Proof/Machine/Montgomery.lean ====
section
/-! DEFINITION. Montgomery multiplication and exponentiation: MONT_MUL (spec/41_montgomery_multiply.md) and MONT_POW
(spec/42_montgomery_pow.md). RMODN is used as it stands, 0 included (D29). -/

namespace Sys2Proof.Machine

/-- The rule of MONT_MUL (R121): the result is not reduced mod `n`. -/
def montMulRule (ar br n ninv rmodn : Word) (w : Work) : RuleOutcome :=
  if TooSmall n ∨ EvenModulus n then .value 0 none w
  else .value (redcMul ar br n ninv rmodn) none w

/-- MONT_MUL (R121). -/
def execMontMul (s : State) : Host.Outcome State Fault Refusal :=
  .next (s.conclude (montMulRule s.a s.b s.n s.ninv s.rmodn s.w))

/-- The rule of MONT_POW (R142): no `ar < 2` shortcut (R144, C1). -/
def montPowRule (ar e n ninv rmodn : Word) (w : Work) : RuleOutcome :=
  if TooSmall n ∨ EvenModulus n then .value 0 none w
  else
    let (v, w) := montPowCore ar e n ninv rmodn w
    .value v none w

/-- MONT_POW (R142). -/
def execMontPow (s : State) : Host.Outcome State Fault Refusal :=
  .next (s.conclude (montPowRule s.a s.e s.n s.ninv s.rmodn s.w))

end Sys2Proof.Machine
end

