-- ==== Sys2Proof/Machine/PowMod.lean ====
section
/-! DEFINITION. The odd-modulus orchestrator and the full dispatcher: POW_MOD_ODD and POW_MOD (spec/44_dispatch.md).
Neither reads or writes the host's NINV and RMODN (R183). -/

namespace Sys2Proof.Machine

/-- The rule of POW_MOD_ODD (R182), with the inverse unit's answer if it has come. -/
def powModOddRule (a e n : Word) (answer : Option Word) (w : Work) : RuleOutcome :=
  if TooSmall n then .value 0 none w
  else if EvenModulus n then .value 0 none w
  else if FixedPoint a then .value a none w
  else withInverse n answer fun inv =>
    let (v, w) := oddCore a e n inv w
    .value v none w

/-- POW_MOD_ODD (R182). -/
def execPowModOdd (s : State) : Host.Outcome State Fault Refusal :=
  .next (s.conclude (powModOddRule s.a s.e s.n s.invAnswer s.w))

/-- The rule of POW_MOD (R185): for an even modulus the inverse of the odd part is asked for, also when that is 1
(R183, R186). -/
def powModRule (a e n : Word) (answer : Option Word) (w : Work) : RuleOutcome :=
  if TooSmall n then .value 0 none w
  else if FixedPoint a then .value a none w
  else if EvenModulus n then withInverse (oddPart n) answer fun inv =>
    let (v, w) := evenPath a e n inv w
    .value v none w
  else withInverse n answer fun inv =>
    let (v, w) := oddCore a e n inv w
    .value v none w

/-- POW_MOD (R185). -/
def execPowMod (s : State) : Host.Outcome State Fault Refusal :=
  .next (s.conclude (powModRule s.a s.e s.n s.invAnswer s.w))

end Sys2Proof.Machine
end

