-- ==== Sys2Proof/Machine/Dispatch.lean ====
section
/-! DEFINITION. The engine's turn on a command in flight: one arm per command, one meaning per arm
(spec/60_exceptions.md R216). -/

namespace Sys2Proof.Machine

def exec (i : Instr) (s : State) : Host.Outcome State Fault Refusal :=
  match i with
  | .toMont => Sys2Proof.Machine.execToMont s
  | .fromMont => Sys2Proof.Machine.execFromMont s
  | .montMul => Sys2Proof.Machine.execMontMul s
  | .montPow => Sys2Proof.Machine.execMontPow s
  | .genPow => Sys2Proof.Machine.execGenPow s
  | .powModOdd => Sys2Proof.Machine.execPowModOdd s
  | .powMod => Sys2Proof.Machine.execPowMod s

end Sys2Proof.Machine
end

