-- ==== Sys2Proof/Machine/Engine.lean ====
section
/-! DEFINITION. What one event does: the engine's turn (spec/60_exceptions.md R216), a bus access, an inverse
response, the reset input; and the placing of a command for the engine's next turn. -/

namespace Sys2Proof.Machine

/-- The engine's turn: idle, it changes nothing (R228); busy, it runs the rule of the command in `w.op` (R216). -/
def engineTurn (s : State) : Host.Outcome State Fault Refusal :=
  match s.phase with
  | .idle => .next s
  | .busy =>
    match decodeOp s.op with
    | some i => exec i s
    | none => .fault (.noCommandInFlight s.op)

/-- A bus access; while the reset input is asserted it is outside the spec and refused (R240, I9). -/
def busTurn (acc : Access) (s : State) : Host.Outcome State Fault Refusal :=
  if s.resetHeld then .refused .busDuringReset else .next (s.access acc)

/-- One event (R66, R217, R222, R240). -/
def onInput (ev : Input) (s : State) : Host.Outcome State Fault Refusal :=
  match ev with
  | .bus acc => busTurn acc s
  | .engine => engineTurn s
  | .invRsp req v => .next (s.inverseResponse req v)
  | .resetAssert => .next s.assertReset
  | .resetRelease => .next s.releaseReset

/-- The first waiting event happens; when none waits the engine has its turn, which is how a command completes
(the weak fairness of R250, log entry 2). -/
def turn (s : State) : Host.Outcome State Fault Refusal :=
  match s.inputs with
  | [] => engineTurn s
  | ev :: rest => onInput ev { s with inputs := rest }

/-- The engine's turn comes before every waiting event. -/
def engineFirst : List Input → List Input
  | [] => []
  | evs => .engine :: evs

/-- The word of an opcode-table row placed where the machine takes its next command from. A command's word is placed as
accepted (R215) with the engine's turn next; any other word as a write to CMD that is the next event (log entry 3). -/
def placeWord (s : State) (nbits w : Nat) : State :=
  match decodeTableWord nbits w with
  | some i => { s.accept (encodeOp i) with resetHeld := false, inputs := engineFirst s.inputs }
  | none =>
    { s with
      phase := .idle
      resetHeld := false
      inputs := .bus { Access.wr .cmd 0 with transfer := .write (tableLanes nbits w) } :: s.inputs }

end Sys2Proof.Machine
end

