-- ==== Sys2Proof/Machine/Step.lean ====
section
/-! DEFINITION. One step of the machine, and the host's placing of a command word. -/

namespace Sys2Proof.Machine

/-- One step: the next event of the single total order (R66, R217). -/
def step (s : State) : Host.Outcome State Fault Refusal := turn s

/-- `s` with the word `w` of an opcode-table row placed where the machine takes its next command from (log entry 3). -/
def State.withFetchWord (s : State) (nbits w : Nat) : State := placeWord s nbits w

end Sys2Proof.Machine
end

