-- ==== Sys2Proof/Safety.lean ====
section
/-! DEFINITION. What counts as a legal state and as a safe step, in the terms the claims use. -/

namespace Sys2Proof.Machine

/-- The command in flight: BUSY is 1 and `w.op` is its opcode (R37, R40, R215). -/
abbrev State.inFlight (s : State) (i : Instr) : Prop := s.phase = .busy ∧ decodeOp s.op = some i

/-- BUSY means that `w.op` holds a command (R215), that DONE is 0 (R38) and that reset is not asserted (R240). -/
def State.BusyOk (s : State) : Prop :=
  s.phase = .busy → (decodeOp s.op).isSome = true ∧ s.done = false ∧ s.resetHeld = false

/-- The command in flight asks for the inverse of the value on the request port, by the operands it runs on (R183). -/
def State.AsksForPort (s : State) : Prop :=
  s.phase = .busy ∧ (decodeOp s.op).bind (fun i => inverseArg i s.a s.n) = some s.invArg

/-- A request is outstanding only for what the command in flight asks for, with no answer yet (R183, R222). -/
def State.PortOk (s : State) : Prop :=
  s.invPending = true → s.AsksForPort ∧ s.invAnswer = none

/-- An answer is held only for what the command in flight asked for (R183, R222). -/
def State.AnswerOk (s : State) : Prop :=
  s.invAnswer.isSome = true → s.AsksForPort

/-- The hidden loop counter is at most 64 (R40, R141) and `w.k` at most 63 (R186, R192). -/
def State.WorkOk (s : State) : Prop := s.w.iter.toNat ≤ 64 ∧ s.w.k.toNat ≤ 63

/-- The states MONTCORE can be in. -/
structure State.Inv (s : State) : Prop where
  busyOk : s.BusyOk
  portOk : s.PortOk
  answerOk : s.AnswerOk
  workOk : s.WorkOk

/-- The next event is a bus access while the reset input is asserted: the only event outside the spec (R240, I9). -/
def State.busDuringReset (s : State) : Prop :=
  s.resetHeld = true ∧ ∃ acc rest, s.inputs = .bus acc :: rest

/-- The write of byte lanes at an offset by a master. -/
def writeOf (master : Nat) (off : Int) (lanes : List Byte) : Access :=
  { master := master, off := off, burst := false, transfer := .write lanes }

/-- The 8-byte read at an offset by a master. -/
def readOf (master : Nat) (off : Int) : Access :=
  { master := master, off := off, burst := false, transfer := .read 8 }

/-- The next event is a STATUS write that has bit `j` set (R35). -/
def State.statusWrite (s : State) (j : Nat) : Prop :=
  ∃ master lanes rest, s.inputs = .bus (writeOf master 0x08 lanes) :: rest ∧ lanes.length = 8 ∧
    (ofLanes lanes).getLsbD j = true

/-- The next event is the assertion of the reset input (R240). -/
def State.resetNext (s : State) : Prop := ∃ rest, s.inputs = .resetAssert :: rest

/-- The inverse unit has answered what command `i` asks for, and kept its contract: the named assumption I3. -/
def State.InverseAnswered (s : State) (i : Instr) : Prop :=
  ∀ m, inverseArg i s.a s.n = some m → ∃ v, s.invAnswer = some v ∧ Config.InvContract m v

/-- The Montgomery context of the host's registers is consistent (R122, R242). -/
def State.ConsistentContext (s : State) : Prop :=
  s.n.toNat % 2 = 1 ∧ 3 ≤ s.n.toNat ∧ Config.InvContract s.n s.ninv ∧ s.rmodn.toNat = 2 ^ 64 % s.n.toNat

/-- The loop of R140 and R160 as a relation with no bound: from `res`, `sq`, `f` the loop ends with the value `v`. -/
inductive LoopRun (mul : Word → Word → Word) : Word → Word → Word → Word → Prop where
  /-- The shifted exponent is 0: the loop exits. -/
  | exit (res sq f : Word) : f >>> 1 = 0 → LoopRun mul res sq f (if bit f 0 then mul res sq else res)
  /-- The shifted exponent is not 0: `sq` is squared and the loop goes on. -/
  | again (res sq f v : Word) : f >>> 1 ≠ 0 →
      LoopRun mul (if bit f 0 then mul res sq else res) (mul sq sq) (f >>> 1) v → LoopRun mul res sq f v

end Sys2Proof.Machine
end

