-- ==== Sys2Proof/Certificates/Slice0/Obligations.lean ====
section
/-! DEFINITION. The statements for the provers, from the numbered rules of spec/. Outside events are the entries of
`inputs` (log entry 1), an empty list is the engine's turn (log entry 2), and the response of a bus access stands in
`reply` (log entry 11). The contract of the inverse unit is the named assumption I3 (log entry 7). -/

open Sys2Proof Sys2Proof.Machine

/-! ### Reset and the whole machine -/

/-- R44: after reset every register reads 0, the engine is idle, `w.op` is 0 and no request is outstanding. -/
def Obligations.ResetState : Prop :=
  (∀ r : Reg, State.reset.readReg r = 0) ∧
    State.reset.phase = .idle ∧ State.reset.op = 0 ∧ State.reset.invPending = false

/-- R241: right after reset MONTCORE is idle and accepts each command at once. -/
def Obligations.ResetAcceptsCommand : Prop :=
  State.reset.busy = false ∧
    ∀ (i : Instr) (m : Nat),
      step { State.reset with inputs := [.bus (writeOf m 0x00 (encode i))] } =
        .next { State.reset with op := encodeOp i, phase := .busy, reply := some ⟨m, .normal⟩ }

/-- R40, R44, R141, R183: the state after reset is one that MONTCORE can be in. That the bounds of `w.iter` and `w.k` hold there is
the model's choice: R44 leaves both unspecified and the model resets them to 0 (log entry 5); the answer held and the level of
the reset input are the model's fields (log entries 9 and 10). -/
def Obligations.ResetMeetsInvariant : Prop := State.reset.Inv

/-- R37, R38, R40, R141, R183, R222: every step keeps the machine's invariant. The model's choice in it: the bounds of `w.iter` and
`w.k` at the assertion of reset, which R44 leaves unspecified (the zeros of log entry 5), the value on the request port (log
entry 8), the answer held (log entry 9) and the level of the reset input (log entry 10). -/
def Obligations.StepKeepsInvariant : Prop :=
  ∀ s t : State, s.Inv → step s = .next t → t.Inv

/-- R82, R217, R240: from a state that MONTCORE can be in, every step goes on, but for a bus access during reset
(log entries 10 and 15). -/
def Obligations.StepAlwaysGoesOn : Prop :=
  ∀ s : State, s.Inv → ¬ s.busDuringReset → ∃ t : State, step s = .next t

/-- R240 and I9: a bus access while the reset input is asserted is outside the spec, and refused by name: the model's
choice among the ways to leave it out (log entry 10). -/
def Obligations.BusDuringResetRefused : Prop :=
  ∀ (s : State) (acc : Access) (rest : List Input),
    s.resetHeld = true → s.inputs = .bus acc :: rest → step s = .refused .busDuringReset

/-- R44, R240: asserting the reset input puts every piece of state in the reset state, whatever was in flight. The model's choice in
it: the hidden working registers become 0 (log entry 5), the count of requests stays and the value on the port becomes 0 (log
entry 8), the answer held is dropped (log entry 9), the level goes up and the last response is cleared (log entries 10
and 11). -/
def Obligations.ResetAssertion : Prop :=
  ∀ (s : State) (rest : List Input), s.inputs = .resetAssert :: rest →
    step s = .next { State.reset with resetHeld := true, invReqs := s.invReqs, inputs := rest }

/-- R240: a command in flight at reset never completes, whatever turns the engine has and whatever answers come. -/
def Obligations.AbandonedCommandNeverCompletes : Prop :=
  ∀ (s : State) (evs rest : List Input),
    (∀ ev ∈ evs, ev = .engine ∨ ev = .resetRelease ∨ ∃ k v, ev = .invRsp k v) →
    s.inputs = .resetAssert :: (evs ++ rest) →
    ∃ t : State, Host.Core.run Sys2Proof.core (evs.length + 1) s = .next t ∧
      t.phase = .idle ∧ t.done = false ∧ t.res = 0 ∧ t.rmodn = 0 ∧ t.invPending = false ∧ t.inputs = rest

/-- R240: an answer to a request made before a reset is ignored for ever after, also with a new request outstanding:
the numbers that tell the two answers apart are the model's (log entry 8). -/
def Obligations.LateAnswerIgnored : Prop :=
  ∀ (s u t : State) (rest rest' : List Input) (steps req : Nat) (v : Word),
    s.inputs = .resetAssert :: rest → step s = .next u →
    Host.Core.run Sys2Proof.core steps u = .next t →
    req ≤ s.invReqs → t.inputs = .invRsp req v :: rest' →
    step t = .next { t with inputs := rest' }

/-! ### Bus accesses -/

/-- R61, R63, R34: a legal read returns the register at the offset, in byte lanes, and changes no state. -/
def Obligations.LegalReadReturnsRegister : Prop :=
  ∀ (s : State) (m : Nat) (off : Int) (rest : List Input),
    s.resetHeld = false → off % 8 = 0 → 0 ≤ off → off < 0x80 →
    s.inputs = .bus (readOf m off) :: rest →
    step s = .next { s with
      inputs := rest
      reply := some ⟨m, .data (toLanes
        (if off = 0x08 then s.status
         else if off = 0x10 then s.a
         else if off = 0x18 then s.b
         else if off = 0x20 then s.e
         else if off = 0x28 then s.n
         else if off = 0x30 then s.ninv
         else if off = 0x38 then s.rmodn
         else if off = 0x40 then s.res
         else 0))⟩ }

/-- R62, R213: an access that is not exactly 8 bytes at a multiple of 8 in the window, or is a burst, gets BusError with its
address and changes no state. -/
def Obligations.IllegalAccessGetsBusError : Prop :=
  ∀ (s : State) (acc : Access) (rest : List Input),
    s.resetHeld = false → s.inputs = .bus acc :: rest →
    ¬ (acc.transfer.bytes = 8 ∧ acc.burst = false ∧ acc.off % 8 = 0 ∧ 0 ≤ acc.off ∧ acc.off < 0x80) →
    step s = .next { s with
      inputs := rest, reply := some ⟨acc.master, .busError ((Config.baseAddr : Int) + acc.off)⟩ }

/-- R63: a reserved offset reads as 0 and ignores writes, whether BUSY is 0 or 1. -/
def Obligations.ReservedOffsetsInert : Prop :=
  ∀ (s : State) (m : Nat) (off : Int) (lanes : List Byte) (rest : List Input),
    s.resetHeld = false → off ∈ [(0x48 : Int), 0x50, 0x58, 0x60, 0x68, 0x70, 0x78] → lanes.length = 8 →
    (s.inputs = .bus (readOf m off) :: rest →
      step s = .next { s with inputs := rest, reply := some ⟨m, .data (toLanes 0)⟩ }) ∧
    (s.inputs = .bus (writeOf m off lanes) :: rest →
      step s = .next { s with inputs := rest, reply := some ⟨m, .normal⟩ })

/-- R35: the bits of STATUS, their value after reset, and what a write to STATUS does, busy or not. -/
def Obligations.StatusBitsAndWrite : Prop :=
  State.reset.status = 0 ∧
  (∀ (s : State) (j : Nat), s.status.getLsbD j =
    (if j = 0 then decide (s.phase = .busy)
     else if j = 1 then s.done
     else if j = 2 then s.illegal
     else if j = 3 then s.collision
     else false)) ∧
  (∀ (s : State) (m : Nat) (lanes : List Byte) (rest : List Input),
    s.resetHeld = false → lanes.length = 8 → s.inputs = .bus (writeOf m 0x08 lanes) :: rest →
    step s = .next { s with
      done := if (ofLanes lanes).getLsbD 1 then false else s.done
      illegal := if (ofLanes lanes).getLsbD 2 then false else s.illegal
      collision := if (ofLanes lanes).getLsbD 3 then false else s.collision
      inputs := rest, reply := some ⟨m, .normal⟩ })

/-- R31, R32, R36, R61: while BUSY is 0 a legal write to an operand register stores the value, and nothing else changes; a
write to N leaves RMODN. -/
def Obligations.IdleWriteStores : Prop :=
  ∀ (s : State) (m : Nat) (off : Int) (lanes : List Byte) (rest : List Input),
    s.resetHeld = false → s.phase = .idle → lanes.length = 8 →
    off ∈ [(0x10 : Int), 0x18, 0x20, 0x28, 0x30, 0x38] →
    s.inputs = .bus (writeOf m off lanes) :: rest →
    step s = .next { s with
      a := if off = 0x10 then ofLanes lanes else s.a
      b := if off = 0x18 then ofLanes lanes else s.b
      e := if off = 0x20 then ofLanes lanes else s.e
      n := if off = 0x28 then ofLanes lanes else s.n
      ninv := if off = 0x30 then ofLanes lanes else s.ninv
      rmodn := if off = 0x38 then ofLanes lanes else s.rmodn
      inputs := rest, reply := some ⟨m, .normal⟩ }

/-- R243, R33: while BUSY is 1 a legal write to CMD or an operand register is dropped and sets COLLISION; and a write to RES
is ignored, busy or not. -/
def Obligations.BusyWriteDropped : Prop :=
  (∀ (s : State) (m : Nat) (off : Int) (lanes : List Byte) (rest : List Input),
    s.resetHeld = false → s.phase = .busy → lanes.length = 8 →
    off ∈ [(0x00 : Int), 0x10, 0x18, 0x20, 0x28, 0x30, 0x38] →
    s.inputs = .bus (writeOf m off lanes) :: rest →
    step s = .next { s with collision := true, inputs := rest, reply := some ⟨m, .normal⟩ }) ∧
  (∀ (s : State) (m : Nat) (lanes : List Byte) (rest : List Input),
    s.resetHeld = false → lanes.length = 8 → s.inputs = .bus (writeOf m 0x40 lanes) :: rest →
    step s = .next { s with inputs := rest, reply := some ⟨m, .normal⟩ })

/-- R64: byte lane `i` carries `bits[8i+7 : 8i]`; eight lanes and the value determine each other. -/
def Obligations.ByteLanesLittleEndian : Prop :=
  (∀ (v : Word) (i : Nat), i < 8 → (toLanes v)[i]? = some (v.extractLsb' (8 * i) 8)) ∧
  (∀ v : Word, (toLanes v).length = 8 ∧ ofLanes (toLanes v) = v) ∧
  (∀ lanes : List Byte, lanes.length = 8 → toLanes (ofLanes lanes) = lanes)

/-- R215: a legal word written to CMD while BUSY is 0 is accepted; ILLEGAL, COLLISION and RES keep their values. -/
def Obligations.LegalCommandAccepted : Prop :=
  ∀ (s : State) (m : Nat) (lanes : List Byte) (rest : List Input),
    s.resetHeld = false → s.phase = .idle → lanes.length = 8 →
    (ofLanes lanes).toNat / 2 ^ 4 = 0 → 1 ≤ (ofLanes lanes).toNat % 2 ^ 4 → (ofLanes lanes).toNat % 2 ^ 4 ≤ 7 →
    s.inputs = .bus (writeOf m 0x00 lanes) :: rest →
    step s = .next { s with
      op := (ofLanes lanes).extractLsb' 0 4, phase := .busy, done := false
      inputs := rest, reply := some ⟨m, .normal⟩ }

/-- R214: an illegal word written to CMD while BUSY is 0 sets ILLEGAL and does nothing else. -/
def Obligations.IllegalCommandRefused : Prop :=
  ∀ (s : State) (m : Nat) (lanes : List Byte) (rest : List Input),
    s.resetHeld = false → s.phase = .idle → lanes.length = 8 →
    ¬ ((ofLanes lanes).toNat / 2 ^ 4 = 0 ∧ 1 ≤ (ofLanes lanes).toNat % 2 ^ 4 ∧
        (ofLanes lanes).toNat % 2 ^ 4 ≤ 7) →
    s.inputs = .bus (writeOf m 0x00 lanes) :: rest →
    step s = .next { s with illegal := true, inputs := rest, reply := some ⟨m, .normal⟩ }

/-- R73, R69, R220: which master issues an access makes no difference but for whom the response goes to. -/
def Obligations.MasterMakesNoDifference : Prop :=
  ∀ (s : State) (acc : Access) (m : Nat) (rest : List Input), s.resetHeld = false →
    ∃ (t : State) (ans : Answer),
      step { s with inputs := .bus acc :: rest } = .next { t with reply := some ⟨acc.master, ans⟩ } ∧
      step { s with inputs := .bus { acc with master := m } :: rest } = .next { t with reply := some ⟨m, ans⟩ }

/-- R65: every access but a write to CMD is idempotent: doing it twice ends as doing it once. -/
def Obligations.AccessIdempotent : Prop :=
  ∀ (s t : State) (acc : Access) (rest : List Input),
    (acc.off ≠ 0x00 ∨ ∃ k, acc.transfer = .read k) →
    step { s with inputs := .bus acc :: .bus acc :: rest } = .next t →
    step t = step { s with inputs := .bus acc :: rest }

/-! ### Encoding -/

/-- R81, R87: the command words of the opcode map, written out, and reserved ones. -/
def Obligations.DecodeListedWords : Prop :=
  decode [0x01, 0, 0, 0, 0, 0, 0, 0] = .ok .toMont ∧ decode [0x02, 0, 0, 0, 0, 0, 0, 0] = .ok .fromMont ∧
  decode [0x03, 0, 0, 0, 0, 0, 0, 0] = .ok .montMul ∧ decode [0x04, 0, 0, 0, 0, 0, 0, 0] = .ok .montPow ∧
  decode [0x05, 0, 0, 0, 0, 0, 0, 0] = .ok .genPow ∧ decode [0x06, 0, 0, 0, 0, 0, 0, 0] = .ok .powModOdd ∧
  decode [0x07, 0, 0, 0, 0, 0, 0, 0] = .ok .powMod ∧
  decode [0x13, 0, 0, 0, 0, 0, 0, 0] = .error .reservedBits ∧
  decode [0x00, 0, 0, 0, 0, 0, 0, 0] = .error (.reservedOp 0) ∧
  decode [0x09, 0, 0, 0, 0, 0, 0, 0] = .error (.reservedOp 9) ∧
  decode [0x0F, 0, 0, 0, 0, 0, 0, 0] = .error (.reservedOp 15) ∧
  decode [0x07, 0, 0, 0, 0, 0, 0, 0x80] = .error .reservedBits

/-- R80, R81, R85: bytes decode to a command exactly if they are its encoding. -/
def Obligations.DecodeExactlyEncodings : Prop :=
  ∀ (bs : List Byte) (i : Instr), decode bs = .ok i ↔ bs = encode i

/-- R82, R84: a command word is legal exactly if RSV is 0 and OP is 1 to 7, and then it selects the command of its OP. -/
def Obligations.LegalWordsExactly : Prop :=
  ∀ v : Word,
    ((∃ i, decodeWord v = .ok i) ↔
      v.toNat / 2 ^ 4 = 0 ∧ 1 ≤ v.toNat % 2 ^ 4 ∧ v.toNat % 2 ^ 4 ≤ 7) ∧
    (∀ i, decodeWord v = .ok i → (encodeOp i).toNat = v.toNat % 2 ^ 4)

/-! ### The engine -/

/-- R215, R216: bytes that decode to a command, written to CMD while idle, put it in flight, and the engine's turn on a
command in flight, waiting in the order or left alone, is `exec` of that command (log entries 2 and 3). -/
def Obligations.StepRunsDecodedCommand : Prop :=
  (∀ (s : State) (bs : List Byte) (i : Instr) (m : Nat) (rest : List Input),
    decode bs = .ok i → s.resetHeld = false → s.phase = .idle →
    s.inputs = .bus (writeOf m 0x00 bs) :: rest →
    ∃ t : State, step s = .next t ∧ t.inFlight i ∧ t.inputs = rest) ∧
  (∀ (s : State) (i : Instr), s.inFlight i →
    (s.inputs = [] → step s = exec i s) ∧
    (∀ rest, s.inputs = .engine :: rest → step s = exec i { s with inputs := rest }))

/-- R228: idle, with nothing waiting, MONTCORE keeps every register (log entry 2). -/
def Obligations.IdleKeepsEverything : Prop :=
  ∀ s : State, s.phase = .idle →
    (s.inputs = [] → step s = .next s) ∧
    (∀ rest, s.inputs = .engine :: rest → step s = .next { s with inputs := rest })

/-- R216, R250: a command in flight that needs no inverse, or has its answer, completes at the engine's next turn. That the turn comes
when no event waits is log entry 2, and that no answer is held after it is log entry 9. -/
def Obligations.CommandInFlightCompletes : Prop :=
  ∀ (s : State) (i : Instr), s.inFlight i → s.inputs = [] →
    (∀ m, inverseArg i s.a s.n = some m → s.invAnswer.isSome = true) →
    ∃ t : State, step s = .next t ∧ t.phase = .idle ∧ t.done = true ∧ t.invPending = false ∧ t.invAnswer = none

/-- R31, R32, R42, R216, R222: the frame of every command. Its turn writes no operand register, no error bit, no opcode, no bus
response and no waiting event; only TO_MONT writes RMODN; a turn that does not wait for the inverse is the completion, which leaves
the request port as it is (the port's fields are the model's: log entries 8 and 9). -/
def Obligations.CommandFrame : Prop :=
  ∀ (i : Instr) (s : State), ∃ t : State, exec i s = .next t ∧
    t = { s with
      res := t.res, rmodn := t.rmodn, phase := t.phase, done := t.done, invPending := t.invPending
      invAnswer := t.invAnswer, invArg := t.invArg, invReqs := t.invReqs, w := t.w } ∧
    (i ≠ .toMont → t.rmodn = s.rmodn) ∧
    ((∀ m, inverseArg i s.a s.n = some m → s.invAnswer.isSome = true) →
      t = { s with
        res := t.res, rmodn := t.rmodn, phase := .idle, done := true, invPending := false
        invAnswer := none, w := t.w })

/-- R33, R67, R216: RES changes only in a completion, in the same update that clears BUSY and sets DONE, or at reset. -/
def Obligations.ResultOnlyAtCompletion : Prop :=
  ∀ s t : State, step s = .next t → ¬ s.resetNext → t.res ≠ s.res →
    s.phase = .busy ∧ t.phase = .idle ∧ t.done = true

/-- R243, R31, R70: from acceptance to completion the operand registers and the opcode are frozen; RMODN changes only in the
completion of TO_MONT. -/
def Obligations.OperandsFrozenWhileBusy : Prop :=
  ∀ s t : State, s.phase = .busy → ¬ s.resetNext → step s = .next t →
    t.a = s.a ∧ t.b = s.b ∧ t.e = s.e ∧ t.n = s.n ∧ t.ninv = s.ninv ∧ t.op = s.op ∧
    (t.rmodn ≠ s.rmodn → s.inFlight .toMont ∧ t.phase = .idle)

/-- R39: what sets ILLEGAL and COLLISION, and what clears them. -/
def Obligations.StickyErrorBits : Prop :=
  ∀ s t : State, step s = .next t →
    (s.illegal = true → t.illegal = false → s.resetNext ∨ s.statusWrite 2) ∧
    (s.collision = true → t.collision = false → s.resetNext ∨ s.statusWrite 3) ∧
    (s.illegal = false → t.illegal = true →
      s.phase = .idle ∧ ∃ m lanes rest, s.inputs = .bus (writeOf m 0x00 lanes) :: rest ∧ lanes.length = 8 ∧
        ∀ i, lanes ≠ encode i) ∧
    (s.collision = false → t.collision = true →
      s.phase = .busy ∧ ∃ m off lanes rest, s.inputs = .bus (writeOf m off lanes) :: rest ∧ lanes.length = 8 ∧
        off ∈ [(0x00 : Int), 0x10, 0x18, 0x20, 0x28, 0x30, 0x38])

/-- R38: DONE is set by a completion, and cleared by an acceptance, a STATUS write with bit 1 set, or reset. -/
def Obligations.DoneBit : Prop :=
  ∀ s t : State, step s = .next t →
    (s.done = false → t.done = true → s.phase = .busy ∧ t.phase = .idle) ∧
    (s.done = true → t.done = false →
      s.resetNext ∨ s.statusWrite 1 ∨ (s.phase = .idle ∧ t.phase = .busy))

/-- R68: once BUSY is 0, RES and RMODN stay through reads, the engine's turns and stray answers (log entry 1). -/
def Obligations.ResultsStayUntilNextWrite : Prop :=
  ∀ (s : State) (evs rest : List Input), s.Inv → s.phase = .idle → s.resetHeld = false →
    (∀ ev ∈ evs, ev = .engine ∨ (∃ k v, ev = .invRsp k v) ∨ ∃ acc k, ev = .bus acc ∧ acc.transfer = .read k) →
    s.inputs = evs ++ rest →
    ∃ t : State, Host.Core.run Sys2Proof.core evs.length s = .next t ∧
      t.phase = .idle ∧ t.done = s.done ∧ t.res = s.res ∧ t.rmodn = s.rmodn ∧ t.inputs = rest

/-- R217, I12: a write to N and the completion of a command in flight happen in either order: the result is the same in
both; the write is dropped with COLLISION in one and performed in the other. -/
def Obligations.CompletionRacesWrite : Prop :=
  ∀ (s : State) (i : Instr) (m : Nat) (lanes : List Byte) (rest : List Input),
    s.inFlight i → s.resetHeld = false → lanes.length = 8 →
    (∀ q, inverseArg i s.a s.n = some q → s.invAnswer.isSome = true) →
    ∃ t u : State,
      Host.Core.run Sys2Proof.core 2 { s with inputs := .bus (writeOf m 0x28 lanes) :: .engine :: rest } = .next t ∧
      Host.Core.run Sys2Proof.core 2 { s with inputs := .engine :: .bus (writeOf m 0x28 lanes) :: rest } = .next u ∧
      t.res = u.res ∧ t.rmodn = u.rmodn ∧ t.phase = .idle ∧ u.phase = .idle ∧
      t.n = s.n ∧ t.collision = true ∧ u.n = ofLanes lanes ∧ u.collision = s.collision

/-! ### Conversion -/

/-- R100, R101: TO_MONT, with its sentinel, its use of the cache and the fill. -/
def Obligations.ToMontResult : Prop :=
  ∀ s : State, ∃ t : State, exec .toMont s = .next t ∧
    t.res.toNat = (if s.n.toNat = 0 ∨ s.n.toNat % 2 = 0 then 0
      else s.a.toNat * (if s.rmodn = 0 then 2 ^ 64 % s.n.toNat else s.rmodn.toNat) % s.n.toNat) ∧
    t.rmodn.toNat = (if (s.n.toNat = 0 ∨ s.n.toNat % 2 = 0) ∨ s.rmodn ≠ 0 then s.rmodn.toNat
      else 2 ^ 64 % s.n.toNat) ∧
    t.phase = .idle ∧ t.done = true ∧ t.illegal = s.illegal ∧ t.collision = s.collision

/-- R102: TO_MONT twice from an empty cache: the same residue, and RMODN holds `2^64 mod n` after both. -/
def Obligations.IdempotentCaching : Prop :=
  ∀ s : State, s.n.toNat % 2 = 1 → 3 ≤ s.n.toNat → s.rmodn = 0 →
    ∃ t u : State, exec .toMont s = .next t ∧ exec .toMont t = .next u ∧ u.res = t.res ∧
      t.rmodn.toNat = 2 ^ 64 % s.n.toNat ∧ u.rmodn.toNat = 2 ^ 64 % s.n.toNat

/-- R104, R105: FROM_MONT: one REDC step reduced mod `n`; the sum never reaches `2^128`, so RMODN is never used. -/
def Obligations.FromMontResult : Prop :=
  ∀ s : State,
    let m := (2 ^ 64 - s.a.toNat) % 2 ^ 64 * s.ninv.toNat % 2 ^ 64
    s.a.toNat + m * s.n.toNat < 2 ^ 128 ∧
    ∃ t : State, exec .fromMont s = .next t ∧
      t.res.toNat = (if s.n.toNat < 2 ∨ s.n.toNat % 2 = 0 then 0
        else (s.a.toNat + m * s.n.toNat) / 2 ^ 64 % s.n.toNat) ∧
      t.phase = .idle ∧ t.done = true ∧ t.illegal = s.illegal ∧ t.collision = s.collision

/-- R107: with `NINV = INV64(n)`, the sum of FROM_MONT is a multiple of `2^64` and its result is `(ar * Rinv) mod n`, for every
`ar`, reduced or not. -/
def Obligations.FromMontCongruence : Prop :=
  ∀ (s : State) (rinv : Nat), s.n.toNat % 2 = 1 → 3 ≤ s.n.toNat → Config.InvContract s.n s.ninv →
    2 ^ 64 * rinv % s.n.toNat = 1 →
    let m := (2 ^ 64 - s.a.toNat) % 2 ^ 64 * s.ninv.toNat % 2 ^ 64
    (s.a.toNat + m * s.n.toNat) % 2 ^ 64 = 0 ∧
    ∃ t : State, exec .fromMont s = .next t ∧ t.res.toNat = (s.a.toNat + m * s.n.toNat) / 2 ^ 64 % s.n.toNat ∧
      t.res.toNat = s.a.toNat * rinv % s.n.toNat

/-- R106: TO_MONT and then FROM_MONT on its result gives `a mod n`. -/
def Obligations.MontgomeryRoundTrip : Prop :=
  ∀ s : State, s.n.toNat % 2 = 1 → 3 ≤ s.n.toNat → Config.InvContract s.n s.ninv →
    (s.rmodn = 0 ∨ s.rmodn.toNat = 2 ^ 64 % s.n.toNat) →
    ∃ t u : State, exec .toMont s = .next t ∧ exec .fromMont { t with a := t.res } = .next u ∧
      u.res.toNat = s.a.toNat % s.n.toNat ∧ (s.a.toNat < s.n.toNat → u.res = s.a)

/-! ### Montgomery multiplication and exponentiation -/

/-- R120, R121: MONT_MUL on a 129-bit adder: 64-bit wrapping `m`, the exact sum, its carry out of 128 bits, its upper half and
the correction by RMODN, for every operand, consistent or not. -/
def Obligations.MontMulDatapath : Prop :=
  ∀ s : State,
    let m : Word := -(s.a * s.b) * s.ninv
    let sum : BitVec 129 :=
      s.a.setWidth 129 * s.b.setWidth 129 + m.setWidth 129 * s.n.setWidth 129
    ∃ t : State, exec .montMul s = .next t ∧
      t.res = (if s.n.toNat < 2 ∨ s.n.toNat % 2 = 0 then 0
        else if sum.getLsbD 128 then sum.extractLsb' 64 64 + s.rmodn
        else sum.extractLsb' 64 64) ∧
      t.phase = .idle ∧ t.done = true ∧ t.illegal = s.illegal ∧ t.collision = s.collision

/-- R122: in a consistent context a carry of MONT_MUL leaves `hi <= n - 2`, and the result is `hi + rmodn`, which does not wrap. -/
def Obligations.CorrectionNeverWraps : Prop :=
  ∀ s : State, s.ConsistentContext →
    let p := s.a.toNat * s.b.toNat
    let m := (2 ^ 64 - p % 2 ^ 64) % 2 ^ 64 * s.ninv.toNat % 2 ^ 64
    let hi := (p + m * s.n.toNat) / 2 ^ 64 % 2 ^ 64
    2 ^ 128 ≤ p + m * s.n.toNat →
    hi ≤ s.n.toNat - 2 ∧ hi + s.rmodn.toNat < 2 ^ 64 ∧
    ∃ t : State, exec .montMul s = .next t ∧ t.res.toNat = hi + s.rmodn.toNat

/-- R123: in a consistent context MONT_MUL gives a value congruent to `ar * br * Rinv`, and FROM_MONT of it is congruent to the
product of the operands' FROM_MONT values, though it may be above `n`. -/
def Obligations.MontMulCongruence : Prop :=
  ∀ (s : State) (rinv : Nat), s.ConsistentContext → 2 ^ 64 * rinv % s.n.toNat = 1 →
    ∃ t ua ub up : State, exec .montMul s = .next t ∧
      t.res.toNat % s.n.toNat = s.a.toNat * s.b.toNat * rinv % s.n.toNat ∧
      exec .fromMont s = .next ua ∧ exec .fromMont { s with a := s.b } = .next ub ∧
      exec .fromMont { s with a := t.res } = .next up ∧
      up.res.toNat % s.n.toNat = ua.res.toNat * ub.res.toNat % s.n.toNat

/-- R124: MONT_MUL gives unreduced results, also with both inputs below `n` (four pairs mod 9), and with a carry. -/
def Obligations.MontMulUnreduced : Prop :=
  (∀ x ∈ [((3 : Word), (3 : Word)), (3, 6), (6, 3), (6, 6)],
    ∃ t : State,
      exec .montMul { State.reset with a := x.1, b := x.2, n := 9, ninv := 0x8e38e38e38e38e39, rmodn := 7 } = .next t ∧
      t.res = 9) ∧
  (∃ t : State,
    exec .montMul { State.reset with
      a := 0xffffffffffffffff, b := 0xffffffffffffffff
      n := 0x8000000000000001, ninv := 0x8000000000000001, rmodn := 0x7fffffffffffffff } = .next t ∧
    t.res = 0xbffffffffffffffd)

/-- R140, R142, R144: MONT_POW is the loop of R140 on the REDC multiplier, run to its own exit, with no shortcut, then one
reduction; for every context, consistent or not. -/
def Obligations.MontPowIsTheLoop : Prop :=
  ∀ s : State, ∃ (v : Word) (t : State),
    LoopRun (fun x y => redcMul x y s.n s.ninv s.rmodn) s.rmodn s.a s.e v ∧
    exec .montPow s = .next t ∧
    t.res.toNat = (if s.n.toNat < 2 ∨ s.n.toNat % 2 = 0 then 0 else v.toNat % s.n.toNat) ∧
    t.phase = .idle ∧ t.done = true ∧ t.illegal = s.illegal ∧ t.collision = s.collision

/-- R143: in a consistent context MONT_POW gives the reduced Montgomery form of `x^e`, where `ar` represents `x`. -/
def Obligations.MontPowCorrect : Prop :=
  ∀ (s : State) (rinv : Nat), s.ConsistentContext → 2 ^ 64 * rinv % s.n.toNat = 1 →
    ∃ t : State, exec .montPow s = .next t ∧
      t.res.toNat = (s.a.toNat * rinv % s.n.toNat) ^ s.e.toNat * 2 ^ 64 % s.n.toNat

/-- R141, R160: the body of the exponentiation loop runs `max(bitlen(e), 1)` times, at most 64; `w.iter` holds that count after
the completion (log entry 4). -/
def Obligations.LoopIterations : Prop :=
  ∀ s : State, max s.e.toNat.size 1 ≤ 64 ∧
    (s.n.toNat % 2 = 1 → 3 ≤ s.n.toNat →
      ∃ t : State, exec .montPow s = .next t ∧ t.w.iter.toNat = max s.e.toNat.size 1) ∧
    (2 ≤ s.n.toNat → 2 ≤ s.a.toNat →
      ∃ t : State, exec .genPow s = .next t ∧ t.w.iter.toNat = max s.e.toNat.size 1)

/-! ### General exponentiation and the dispatcher -/

/-- R163: GEN_POW in closed form. -/
def Obligations.GenPowClosedForm : Prop :=
  ∀ s : State, ∃ t : State, exec .genPow s = .next t ∧
    t.res.toNat = (if s.n.toNat < 2 then 0
      else if s.a.toNat = 0 then 0
      else s.a.toNat ^ s.e.toNat % s.n.toNat) ∧
    t.phase = .idle ∧ t.done = true ∧ t.illegal = s.illegal ∧ t.collision = s.collision

/-- R184: POW_MOD_ODD in closed form, given the inverse unit's contract (I3); on every odd `n` it agrees with POW_MOD. -/
def Obligations.PowModOddClosedForm : Prop :=
  (∀ s : State, s.InverseAnswered .powModOdd → ∃ t : State, exec .powModOdd s = .next t ∧
    t.res.toNat = (if s.n.toNat < 2 ∨ s.n.toNat % 2 = 0 then 0
      else if s.a.toNat = 0 then 0
      else s.a.toNat ^ s.e.toNat % s.n.toNat) ∧
    t.phase = .idle ∧ t.done = true ∧ t.illegal = s.illegal ∧ t.collision = s.collision) ∧
  (∀ s : State, s.n.toNat % 2 = 1 → exec .powMod s = exec .powModOdd s)

/-- R189: POW_MOD in closed form, given the inverse unit's contract (I3), for every modulus; and its result modulo the two factors
of an even modulus. -/
def Obligations.PowModClosedForm : Prop :=
  ∀ s : State, s.InverseAnswered .powMod → ∃ t : State, exec .powMod s = .next t ∧
    t.res.toNat = (if s.n.toNat < 2 then 0
      else if s.a.toNat < 2 then s.a.toNat
      else s.a.toNat ^ s.e.toNat % s.n.toNat) ∧
    (∀ k m, 2 ≤ s.n.toNat → 2 ≤ s.a.toNat → s.n.toNat = 2 ^ k * m →
      t.res.toNat % m = s.a.toNat ^ s.e.toNat % m ∧ t.res.toNat % 2 ^ k = s.a.toNat ^ s.e.toNat % 2 ^ k) ∧
    t.phase = .idle ∧ t.done = true ∧ t.illegal = s.illegal ∧ t.collision = s.collision

/-- R182, R185, R215, R216, R222, R223: POW_MOD, and POW_MOD_ODD on an odd modulus, from the CMD write to DONE: accept, request,
answer, completion. The result is what the command computes with the value answered, whatever it is, and `a^e mod n` if the
answer is within the contract, the named assumption I3 (log entries 1, 7, 8, 9 and 19). -/
def Obligations.PowModRunsToDone : Prop :=
  ∀ (s : State) (i : Instr) (m : Nat) (v : Word) (rest : List Input),
    s.Inv → s.phase = .idle → s.resetHeld = false → 2 ≤ s.a.toNat →
    ((i = .powMod ∧ 2 ≤ s.n.toNat) ∨ (i = .powModOdd ∧ 3 ≤ s.n.toNat ∧ s.n.toNat % 2 = 1)) →
    s.inputs = .bus (writeOf m 0x00 (encode i)) :: .engine :: .invRsp (s.invReqs + 1) v :: .engine :: rest →
    ∃ t r : State, Host.Core.run Sys2Proof.core 4 s = .next t ∧
      exec i { s with invAnswer := some v } = .next r ∧ t.res = r.res ∧
      ((∀ q, inverseArg i s.a s.n = some q → Config.InvContract q v) →
        t.res.toNat = s.a.toNat ^ s.e.toNat % s.n.toNat) ∧
      t.phase = .idle ∧ t.done = true ∧ t.invPending = false ∧ t.invAnswer = none ∧ t.invReqs = s.invReqs + 1 ∧
      t.a = s.a ∧ t.b = s.b ∧ t.e = s.e ∧ t.n = s.n ∧ t.ninv = s.ninv ∧ t.rmodn = s.rmodn ∧
      t.illegal = s.illegal ∧ t.collision = s.collision ∧ t.inputs = rest

/-- R183: exactly one request, for `n` or for the odd part of an even `n`, in the three cases of the table, and none
otherwise; while it is outstanding the engine waits (log entries 8 and 19). -/
def Obligations.InverseRequestTable : Prop :=
  ∀ (s : State) (i : Instr),
    (((i = .powModOdd ∨ i = .powMod) ∧ s.n.toNat % 2 = 1 ∧ 3 ≤ s.n.toNat ∧ 2 ≤ s.a.toNat) →
      s.invAnswer = none →
      (s.invPending = false →
        exec i s = .next { s with invPending := true, invArg := s.n, invReqs := s.invReqs + 1 }) ∧
      (s.invPending = true → exec i s = .next s)) ∧
    ((i = .powMod ∧ s.n.toNat % 2 = 0 ∧ 2 ≤ s.n.toNat ∧ 2 ≤ s.a.toNat) → s.invAnswer = none →
      (s.invPending = false → ∃ (m : Word) (k : Nat), s.n.toNat = 2 ^ k * m.toNat ∧ m.toNat % 2 = 1 ∧
        exec i s = .next { s with invPending := true, invArg := m, invReqs := s.invReqs + 1 }) ∧
      (s.invPending = true → exec i s = .next s)) ∧
    ((s.invAnswer.isSome = true ∨
        ¬ (((i = .powModOdd ∨ i = .powMod) ∧ s.n.toNat % 2 = 1 ∧ 3 ≤ s.n.toNat ∧ 2 ≤ s.a.toNat) ∨
          (i = .powMod ∧ s.n.toNat % 2 = 0 ∧ 2 ≤ s.n.toNat ∧ 2 ≤ s.a.toNat))) →
      ∃ t : State, exec i s = .next t ∧ t.invReqs = s.invReqs ∧ t.phase = .idle ∧ t.done = true)

/-- R183: POW_MOD_ODD and POW_MOD neither read nor write the host's NINV and RMODN. -/
def Obligations.HostContextUntouched : Prop :=
  ∀ (s : State) (i : Instr) (x y : Word), (i = .powModOdd ∨ i = .powMod) →
    ∃ t : State, exec i s = .next t ∧ t.ninv = s.ninv ∧ t.rmodn = s.rmodn ∧
      exec i { s with ninv := x, rmodn := y } = .next { t with ninv := x, rmodn := y }

/-- R40, R180, R183: which hidden working registers a command may write: MONT_POW and GEN_POW those of the loop, the odd path the
internal context as well; the other three commands none (log entry 4). -/
def Obligations.WorkingRegisterFrame : Prop :=
  ∀ (i : Instr) (s : State), ∃ t : State, exec i s = .next t ∧
    ((i = .toMont ∨ i = .fromMont ∨ i = .montMul) → t.w = s.w) ∧
    ((i = .montPow ∨ i = .genPow) →
      t.w = { s.w with res := t.w.res, sq := t.w.sq, f := t.w.f, iter := t.w.iter }) ∧
    ((i = .powModOdd ∨ (i = .powMod ∧ s.n.toNat % 2 = 1)) →
      t.w = { s.w with
        res := t.w.res, sq := t.w.sq, f := t.w.f, iter := t.w.iter, ctxR := t.w.ctxR, ctxInv := t.w.ctxInv })

/-- R180, R183: on an odd modulus both POW_MOD_ODD and POW_MOD build the context in hidden registers: `2^64 mod n`, whatever RMODN
holds, and the inverse unit's answer, whatever NINV holds (log entry 4). -/
def Obligations.InternalContext : Prop :=
  ∀ (s : State) (i : Instr) (inv : Word), (i = .powModOdd ∨ i = .powMod) → s.invAnswer = some inv →
    s.n.toNat % 2 = 1 → 3 ≤ s.n.toNat → 2 ≤ s.a.toNat →
    ∃ t : State, exec i s = .next t ∧ t.w.ctxR.toNat = 2 ^ 64 % s.n.toNat ∧ t.w.ctxInv = inv ∧
      t.w.iter.toNat = max s.e.toNat.size 1

/-- R186, R187, R190, R192: what the even path leaves in its hidden registers, given the inverse unit's contract (I3): the split of
`n`, the two partial powers, and the result as their combination, below `n` (log entry 4). -/
def Obligations.EvenPathInternals : Prop :=
  ∀ s : State, s.InverseAnswered .powMod → s.n.toNat % 2 = 0 → 2 ≤ s.n.toNat → 2 ≤ s.a.toNat →
    ∃ t : State, exec .powMod s = .next t ∧
      s.n.toNat = 2 ^ t.w.k.toNat * t.w.m.toNat ∧ t.w.m.toNat % 2 = 1 ∧ 1 ≤ t.w.k.toNat ∧ t.w.k.toNat ≤ 63 ∧
      t.w.r1.toNat = s.a.toNat ^ s.e.toNat % t.w.m.toNat ∧
      t.w.r2.toNat = s.a.toNat ^ s.e.toNat % 2 ^ t.w.k.toNat ∧
      (∃ x, x < 2 ^ t.w.k.toNat ∧ t.res.toNat = t.w.r1.toNat + x * t.w.m.toNat) ∧ t.res.toNat ≤ s.n.toNat - 1 ∧
      (3 ≤ t.w.m.toNat → t.w.ctxR.toNat = 2 ^ 64 % t.w.m.toNat ∧ s.invAnswer = some t.w.ctxInv)

/-- R222: the engine never sends an even value, and sends no request while one is outstanding (log entry 8). -/
def Obligations.RequestsAreOddAndSingle : Prop :=
  (∀ s : State, s.Inv → s.invPending = true → s.invArg.toNat % 2 = 1) ∧
  (∀ s t : State, step s = .next t → t.invReqs ≠ s.invReqs →
    s.phase = .busy ∧ s.invPending = false ∧ t.invPending = true ∧ t.invReqs = s.invReqs + 1 ∧
      t.invArg.toNat % 2 = 1)

/-- R223, R247: with the inverse answer never coming, BUSY stays 1 through every event but reset, and operands and RES keep
their values (log entries 2 and 8). -/
def Obligations.UnansweredCommandHangs : Prop :=
  ∀ (s : State) (evs rest : List Input), s.Inv → s.invPending = true →
    (∀ ev ∈ evs, ev ≠ .resetAssert ∧ ∀ v, ev ≠ .invRsp s.invReqs v) → s.inputs = evs ++ rest →
    ∃ t : State, Host.Core.run Sys2Proof.core evs.length s = .next t ∧
      t.phase = .busy ∧ t.op = s.op ∧ t.invPending = true ∧ t.res = s.res ∧
      t.a = s.a ∧ t.b = s.b ∧ t.e = s.e ∧ t.n = s.n ∧ t.ninv = s.ninv ∧ t.rmodn = s.rmodn ∧ t.inputs = rest ∧
      (rest = [] → step t = .next t)

/-- R211, R212: the sentinel conditions in their priority, each with its result; the command completes normally and leaves no
other record, in no register and in no hidden one. -/
def Obligations.SentinelResults : Prop :=
  ∀ (s : State) (i : Instr),
    ((i = .toMont ∧ s.n.toNat = 0) ∨ (i ≠ .toMont ∧ s.n.toNat < 2) →
      ∃ t : State, exec i s = .next t ∧ t.res = 0 ∧ t.phase = .idle ∧ t.done = true ∧
        t.illegal = s.illegal ∧ t.collision = s.collision ∧ t.rmodn = s.rmodn ∧ t.w = s.w) ∧
    (s.n.toNat % 2 = 0 → 2 ≤ s.n.toNat → i ≠ .genPow → i ≠ .powMod →
      ∃ t : State, exec i s = .next t ∧ t.res = 0 ∧ t.phase = .idle ∧ t.done = true ∧
        t.illegal = s.illegal ∧ t.collision = s.collision ∧ t.rmodn = s.rmodn ∧ t.w = s.w) ∧
    (s.a.toNat < 2 → 2 ≤ s.n.toNat →
      (i = .genPow ∨ i = .powMod ∨ (i = .powModOdd ∧ s.n.toNat % 2 = 1)) →
      ∃ t : State, exec i s = .next t ∧ t.res = s.a ∧ t.phase = .idle ∧ t.done = true ∧
        t.illegal = s.illegal ∧ t.collision = s.collision ∧ t.rmodn = s.rmodn ∧ t.w = s.w)

/-! ### Beside the statements above: the response port, BUSY, the release of reset -/

/-- R222, R223, R240: the response with the number of the outstanding request is taken, whatever its value: the request is no longer
outstanding and the value is held; any other response leaves the whole state as it was. The numbers are the model's (log entry
8), and so is the field that holds the value (log entry 9). -/
def Obligations.InverseResponseTaken : Prop :=
  ∀ (s : State) (req : Nat) (v : Word) (rest : List Input), s.inputs = .invRsp req v :: rest →
    (s.invPending = true → req = s.invReqs →
      step s = .next { s with invPending := false, invAnswer := some v, inputs := rest }) ∧
    (s.invPending = false ∨ req ≠ s.invReqs → step s = .next { s with inputs := rest })

/-- R37: what sets and what clears STATUS.BUSY, bit 0. It goes to 1 only in the acceptance of a legal word in an 8-byte write to CMD
with reset not asserted, and to 0 only at reset or in the completion of the command in flight, with its inverse answered where it
needs one; the completion is the engine's turn, waiting in the order or with no event waiting (log entries 1, 2 and 9). -/
def Obligations.BusyBit : Prop :=
  ∀ s t : State, step s = .next t →
    (s.status.getLsbD 0 = false → t.status.getLsbD 0 = true →
      s.resetHeld = false ∧ ∃ m lanes rest i, s.inputs = .bus (writeOf m 0x00 lanes) :: rest ∧ lanes.length = 8 ∧
        decode lanes = .ok i ∧ t.op = encodeOp i ∧ t.done = false) ∧
    (s.status.getLsbD 0 = true → t.status.getLsbD 0 = false →
      s.resetNext ∨
      (t.done = true ∧ ∃ i rest, (s.inputs = [] ∧ rest = [] ∨ s.inputs = .engine :: rest) ∧ s.inFlight i ∧
        exec i { s with inputs := rest } = .next t ∧
        ∀ q, inverseArg i s.a s.n = some q → s.invAnswer.isSome = true))

/-- R240: the release of the reset input ends the assertion and changes nothing else. That assertion and release are events with a
level between them is log entry 10. -/
def Obligations.ResetRelease : Prop :=
  ∀ (s : State) (rest : List Input), s.inputs = .resetRelease :: rest →
    step s = .next { s with resetHeld := false, inputs := rest }
end

