-- ==== Sys2Proof/Laws/Lanes.lean ====
section
/-! SUPPORT. Byte lanes and values determine each other (spec/20_memory.md R64). -/

namespace Sys2Proof

/-- `k` lanes are `k` bytes. -/
@[simp] theorem lanesOfNat_length : ∀ k v : Nat, (lanesOfNat k v).length = k
  | 0, _ => rfl
  | k + 1, v => by simp [lanesOfNat, lanesOfNat_length k]

/-- A register value has 8 byte lanes (R64). -/
@[simp] theorem toLanes_length (v : Word) : (toLanes v).length = 8 := lanesOfNat_length 8 _

/-- The low `k` lanes carry the value modulo `2^(8k)`. -/
theorem natOfLanes_lanesOfNat : ∀ k v : Nat, natOfLanes (lanesOfNat k v) = v % 2 ^ (8 * k)
  | 0, v => by simp [lanesOfNat, natOfLanes, Nat.mod_one]
  | k + 1, v => by
    rw [lanesOfNat, natOfLanes, natOfLanes_lanesOfNat k, BitVec.toNat_ofNat]
    rw [show 8 * (k + 1) = 8 + 8 * k by ring, pow_add, Nat.mod_mul]

/-- Lanes are the lanes of the value they carry. -/
theorem lanesOfNat_natOfLanes : ∀ bs : List Byte, lanesOfNat bs.length (natOfLanes bs) = bs
  | [] => rfl
  | b :: bs => by
    have h1 : BitVec.ofNat 8 (b.toNat + 2 ^ 8 * natOfLanes bs) = b :=
      BitVec.eq_of_toNat_eq (by rw [BitVec.toNat_ofNat]; have := b.isLt; omega)
    have h2 : (b.toNat + 2 ^ 8 * natOfLanes bs) / 2 ^ 8 = natOfLanes bs := by
      have := b.isLt; omega
    rw [natOfLanes, List.length_cons, lanesOfNat, h1, h2, lanesOfNat_natOfLanes bs]

/-- The value of lanes is below `2^(8 * their number)`. -/
theorem natOfLanes_lt (bs : List Byte) : natOfLanes bs < 2 ^ (8 * bs.length) := by
  have h := natOfLanes_lanesOfNat bs.length (natOfLanes bs)
  rw [lanesOfNat_natOfLanes] at h
  rw [h]; exact Nat.mod_lt _ (by positivity)

/-- The lanes of a value carry it. -/
@[simp] theorem ofLanes_toLanes (v : Word) : ofLanes (toLanes v) = v := by
  rw [ofLanes, toLanes, natOfLanes_lanesOfNat, Nat.mod_eq_of_lt v.isLt]
  exact BitVec.eq_of_toNat_eq (by rw [BitVec.toNat_ofNat, Nat.mod_eq_of_lt v.isLt])

/-- Eight lanes are the lanes of the value they carry. -/
theorem toLanes_ofLanes {bs : List Byte} (h : bs.length = 8) : toLanes (ofLanes bs) = bs := by
  have hlt := natOfLanes_lt bs
  rw [h] at hlt
  rw [toLanes, ofLanes, BitVec.toNat_ofNat, Nat.mod_eq_of_lt hlt, ← h, lanesOfNat_natOfLanes]

/-- Lane `i` of a value is its byte `i`. -/
theorem lanesOfNat_getElem? : ∀ (k v i : Nat), i < k → (lanesOfNat k v)[i]? = some (BitVec.ofNat 8 (v / 2 ^ (8 * i)))
  | 0, _, _, h => absurd h (Nat.not_lt_zero _)
  | k + 1, v, 0, _ => by simp [lanesOfNat]
  | k + 1, v, i + 1, h => by
    rw [lanesOfNat, List.getElem?_cons_succ, lanesOfNat_getElem? k _ i (by omega), Nat.div_div_eq_div_mul,
      ← pow_add, show 8 + 8 * i = 8 * (i + 1) by ring]

end Sys2Proof
end

