-- ==== Sys2Proof/Laws/State.lean ====
section
/-! SUPPORT. One lemma per field per update of the state, so that no later proof unfolds a record update. -/

namespace Sys2Proof.Machine

variable (s : State)

/-! ### accept -/

@[simp] theorem State.accept_a (op : BitVec 4) : (s.accept op).a = s.a := rfl
@[simp] theorem State.accept_b (op : BitVec 4) : (s.accept op).b = s.b := rfl
@[simp] theorem State.accept_e (op : BitVec 4) : (s.accept op).e = s.e := rfl
@[simp] theorem State.accept_n (op : BitVec 4) : (s.accept op).n = s.n := rfl
@[simp] theorem State.accept_ninv (op : BitVec 4) : (s.accept op).ninv = s.ninv := rfl
@[simp] theorem State.accept_rmodn (op : BitVec 4) : (s.accept op).rmodn = s.rmodn := rfl
@[simp] theorem State.accept_res (op : BitVec 4) : (s.accept op).res = s.res := rfl
@[simp] theorem State.accept_done (op : BitVec 4) : (s.accept op).done = false := rfl
@[simp] theorem State.accept_illegal (op : BitVec 4) : (s.accept op).illegal = s.illegal := rfl
@[simp] theorem State.accept_collision (op : BitVec 4) : (s.accept op).collision = s.collision := rfl
@[simp] theorem State.accept_phase (op : BitVec 4) : (s.accept op).phase = .busy := rfl
@[simp] theorem State.accept_op (op : BitVec 4) : (s.accept op).op = op := rfl
@[simp] theorem State.accept_invPending (op : BitVec 4) : (s.accept op).invPending = s.invPending := rfl
@[simp] theorem State.accept_w (op : BitVec 4) : (s.accept op).w = s.w := rfl
@[simp] theorem State.accept_invAnswer (op : BitVec 4) : (s.accept op).invAnswer = s.invAnswer := rfl
@[simp] theorem State.accept_invArg (op : BitVec 4) : (s.accept op).invArg = s.invArg := rfl
@[simp] theorem State.accept_invReqs (op : BitVec 4) : (s.accept op).invReqs = s.invReqs := rfl
@[simp] theorem State.accept_resetHeld (op : BitVec 4) : (s.accept op).resetHeld = s.resetHeld := rfl
@[simp] theorem State.accept_reply (op : BitVec 4) : (s.accept op).reply = s.reply := rfl
@[simp] theorem State.accept_inputs (op : BitVec 4) : (s.accept op).inputs = s.inputs := rfl

/-! ### complete -/

@[simp] theorem State.complete_a (v : Word) (fill : Option Word) (w : Work) : (s.complete v fill w).a = s.a := rfl
@[simp] theorem State.complete_b (v : Word) (fill : Option Word) (w : Work) : (s.complete v fill w).b = s.b := rfl
@[simp] theorem State.complete_e (v : Word) (fill : Option Word) (w : Work) : (s.complete v fill w).e = s.e := rfl
@[simp] theorem State.complete_n (v : Word) (fill : Option Word) (w : Work) : (s.complete v fill w).n = s.n := rfl
@[simp] theorem State.complete_ninv (v : Word) (fill : Option Word) (w : Work) : (s.complete v fill w).ninv = s.ninv := rfl
@[simp] theorem State.complete_rmodn (v : Word) (fill : Option Word) (w : Work) : (s.complete v fill w).rmodn = fill.getD s.rmodn := rfl
@[simp] theorem State.complete_res (v : Word) (fill : Option Word) (w : Work) : (s.complete v fill w).res = v := rfl
@[simp] theorem State.complete_done (v : Word) (fill : Option Word) (w : Work) : (s.complete v fill w).done = true := rfl
@[simp] theorem State.complete_illegal (v : Word) (fill : Option Word) (w : Work) : (s.complete v fill w).illegal = s.illegal := rfl
@[simp] theorem State.complete_collision (v : Word) (fill : Option Word) (w : Work) : (s.complete v fill w).collision = s.collision := rfl
@[simp] theorem State.complete_phase (v : Word) (fill : Option Word) (w : Work) : (s.complete v fill w).phase = .idle := rfl
@[simp] theorem State.complete_op (v : Word) (fill : Option Word) (w : Work) : (s.complete v fill w).op = s.op := rfl
@[simp] theorem State.complete_invPending (v : Word) (fill : Option Word) (w : Work) : (s.complete v fill w).invPending = false := rfl
@[simp] theorem State.complete_w (v : Word) (fill : Option Word) (w : Work) : (s.complete v fill w).w = w := rfl
@[simp] theorem State.complete_invAnswer (v : Word) (fill : Option Word) (w : Work) : (s.complete v fill w).invAnswer = none := rfl
@[simp] theorem State.complete_invArg (v : Word) (fill : Option Word) (w : Work) : (s.complete v fill w).invArg = s.invArg := rfl
@[simp] theorem State.complete_invReqs (v : Word) (fill : Option Word) (w : Work) : (s.complete v fill w).invReqs = s.invReqs := rfl
@[simp] theorem State.complete_resetHeld (v : Word) (fill : Option Word) (w : Work) : (s.complete v fill w).resetHeld = s.resetHeld := rfl
@[simp] theorem State.complete_reply (v : Word) (fill : Option Word) (w : Work) : (s.complete v fill w).reply = s.reply := rfl
@[simp] theorem State.complete_inputs (v : Word) (fill : Option Word) (w : Work) : (s.complete v fill w).inputs = s.inputs := rfl

/-! ### writeStatus -/

@[simp] theorem State.writeStatus_a (v : Word) : (s.writeStatus v).a = s.a := rfl
@[simp] theorem State.writeStatus_b (v : Word) : (s.writeStatus v).b = s.b := rfl
@[simp] theorem State.writeStatus_e (v : Word) : (s.writeStatus v).e = s.e := rfl
@[simp] theorem State.writeStatus_n (v : Word) : (s.writeStatus v).n = s.n := rfl
@[simp] theorem State.writeStatus_ninv (v : Word) : (s.writeStatus v).ninv = s.ninv := rfl
@[simp] theorem State.writeStatus_rmodn (v : Word) : (s.writeStatus v).rmodn = s.rmodn := rfl
@[simp] theorem State.writeStatus_res (v : Word) : (s.writeStatus v).res = s.res := rfl
@[simp] theorem State.writeStatus_done (v : Word) : (s.writeStatus v).done = (s.done && !v.getLsbD 1) := rfl
@[simp] theorem State.writeStatus_illegal (v : Word) : (s.writeStatus v).illegal = (s.illegal && !v.getLsbD 2) := rfl
@[simp] theorem State.writeStatus_collision (v : Word) : (s.writeStatus v).collision = (s.collision && !v.getLsbD 3) := rfl
@[simp] theorem State.writeStatus_phase (v : Word) : (s.writeStatus v).phase = s.phase := rfl
@[simp] theorem State.writeStatus_op (v : Word) : (s.writeStatus v).op = s.op := rfl
@[simp] theorem State.writeStatus_invPending (v : Word) : (s.writeStatus v).invPending = s.invPending := rfl
@[simp] theorem State.writeStatus_w (v : Word) : (s.writeStatus v).w = s.w := rfl
@[simp] theorem State.writeStatus_invAnswer (v : Word) : (s.writeStatus v).invAnswer = s.invAnswer := rfl
@[simp] theorem State.writeStatus_invArg (v : Word) : (s.writeStatus v).invArg = s.invArg := rfl
@[simp] theorem State.writeStatus_invReqs (v : Word) : (s.writeStatus v).invReqs = s.invReqs := rfl
@[simp] theorem State.writeStatus_resetHeld (v : Word) : (s.writeStatus v).resetHeld = s.resetHeld := rfl
@[simp] theorem State.writeStatus_reply (v : Word) : (s.writeStatus v).reply = s.reply := rfl
@[simp] theorem State.writeStatus_inputs (v : Word) : (s.writeStatus v).inputs = s.inputs := rfl

/-! ### respond -/

@[simp] theorem State.respond_a (acc : Access) (ans : Answer) : (s.respond acc ans).a = s.a := rfl
@[simp] theorem State.respond_b (acc : Access) (ans : Answer) : (s.respond acc ans).b = s.b := rfl
@[simp] theorem State.respond_e (acc : Access) (ans : Answer) : (s.respond acc ans).e = s.e := rfl
@[simp] theorem State.respond_n (acc : Access) (ans : Answer) : (s.respond acc ans).n = s.n := rfl
@[simp] theorem State.respond_ninv (acc : Access) (ans : Answer) : (s.respond acc ans).ninv = s.ninv := rfl
@[simp] theorem State.respond_rmodn (acc : Access) (ans : Answer) : (s.respond acc ans).rmodn = s.rmodn := rfl
@[simp] theorem State.respond_res (acc : Access) (ans : Answer) : (s.respond acc ans).res = s.res := rfl
@[simp] theorem State.respond_done (acc : Access) (ans : Answer) : (s.respond acc ans).done = s.done := rfl
@[simp] theorem State.respond_illegal (acc : Access) (ans : Answer) : (s.respond acc ans).illegal = s.illegal := rfl
@[simp] theorem State.respond_collision (acc : Access) (ans : Answer) : (s.respond acc ans).collision = s.collision := rfl
@[simp] theorem State.respond_phase (acc : Access) (ans : Answer) : (s.respond acc ans).phase = s.phase := rfl
@[simp] theorem State.respond_op (acc : Access) (ans : Answer) : (s.respond acc ans).op = s.op := rfl
@[simp] theorem State.respond_invPending (acc : Access) (ans : Answer) : (s.respond acc ans).invPending = s.invPending := rfl
@[simp] theorem State.respond_w (acc : Access) (ans : Answer) : (s.respond acc ans).w = s.w := rfl
@[simp] theorem State.respond_invAnswer (acc : Access) (ans : Answer) : (s.respond acc ans).invAnswer = s.invAnswer := rfl
@[simp] theorem State.respond_invArg (acc : Access) (ans : Answer) : (s.respond acc ans).invArg = s.invArg := rfl
@[simp] theorem State.respond_invReqs (acc : Access) (ans : Answer) : (s.respond acc ans).invReqs = s.invReqs := rfl
@[simp] theorem State.respond_resetHeld (acc : Access) (ans : Answer) : (s.respond acc ans).resetHeld = s.resetHeld := rfl
@[simp] theorem State.respond_reply (acc : Access) (ans : Answer) : (s.respond acc ans).reply = some ⟨acc.master, ans⟩ := rfl
@[simp] theorem State.respond_inputs (acc : Access) (ans : Answer) : (s.respond acc ans).inputs = s.inputs := rfl

/-! ### releaseReset -/

@[simp] theorem State.releaseReset_a : s.releaseReset.a = s.a := rfl
@[simp] theorem State.releaseReset_b : s.releaseReset.b = s.b := rfl
@[simp] theorem State.releaseReset_e : s.releaseReset.e = s.e := rfl
@[simp] theorem State.releaseReset_n : s.releaseReset.n = s.n := rfl
@[simp] theorem State.releaseReset_ninv : s.releaseReset.ninv = s.ninv := rfl
@[simp] theorem State.releaseReset_rmodn : s.releaseReset.rmodn = s.rmodn := rfl
@[simp] theorem State.releaseReset_res : s.releaseReset.res = s.res := rfl
@[simp] theorem State.releaseReset_done : s.releaseReset.done = s.done := rfl
@[simp] theorem State.releaseReset_illegal : s.releaseReset.illegal = s.illegal := rfl
@[simp] theorem State.releaseReset_collision : s.releaseReset.collision = s.collision := rfl
@[simp] theorem State.releaseReset_phase : s.releaseReset.phase = s.phase := rfl
@[simp] theorem State.releaseReset_op : s.releaseReset.op = s.op := rfl
@[simp] theorem State.releaseReset_invPending : s.releaseReset.invPending = s.invPending := rfl
@[simp] theorem State.releaseReset_w : s.releaseReset.w = s.w := rfl
@[simp] theorem State.releaseReset_invAnswer : s.releaseReset.invAnswer = s.invAnswer := rfl
@[simp] theorem State.releaseReset_invArg : s.releaseReset.invArg = s.invArg := rfl
@[simp] theorem State.releaseReset_invReqs : s.releaseReset.invReqs = s.invReqs := rfl
@[simp] theorem State.releaseReset_resetHeld : s.releaseReset.resetHeld = false := rfl
@[simp] theorem State.releaseReset_reply : s.releaseReset.reply = s.reply := rfl
@[simp] theorem State.releaseReset_inputs : s.releaseReset.inputs = s.inputs := rfl

/-! ### assertReset -/

@[simp] theorem State.assertReset_a : s.assertReset.a = 0 := rfl
@[simp] theorem State.assertReset_b : s.assertReset.b = 0 := rfl
@[simp] theorem State.assertReset_e : s.assertReset.e = 0 := rfl
@[simp] theorem State.assertReset_n : s.assertReset.n = 0 := rfl
@[simp] theorem State.assertReset_ninv : s.assertReset.ninv = 0 := rfl
@[simp] theorem State.assertReset_rmodn : s.assertReset.rmodn = 0 := rfl
@[simp] theorem State.assertReset_res : s.assertReset.res = 0 := rfl
@[simp] theorem State.assertReset_done : s.assertReset.done = false := rfl
@[simp] theorem State.assertReset_illegal : s.assertReset.illegal = false := rfl
@[simp] theorem State.assertReset_collision : s.assertReset.collision = false := rfl
@[simp] theorem State.assertReset_phase : s.assertReset.phase = .idle := rfl
@[simp] theorem State.assertReset_op : s.assertReset.op = 0 := rfl
@[simp] theorem State.assertReset_invPending : s.assertReset.invPending = false := rfl
@[simp] theorem State.assertReset_w : s.assertReset.w = Work.reset := rfl
@[simp] theorem State.assertReset_invAnswer : s.assertReset.invAnswer = none := rfl
@[simp] theorem State.assertReset_invArg : s.assertReset.invArg = 0 := rfl
@[simp] theorem State.assertReset_invReqs : s.assertReset.invReqs = s.invReqs := rfl
@[simp] theorem State.assertReset_resetHeld : s.assertReset.resetHeld = true := rfl
@[simp] theorem State.assertReset_reply : s.assertReset.reply = none := rfl
@[simp] theorem State.assertReset_inputs : s.assertReset.inputs = s.inputs := rfl

end Sys2Proof.Machine
end

