-- ==== Sys2Proof/Laws/Ops.lean ====
section
/-! SUPPORT. What each shared operation can do, once for each (R62, R82, R214, R215, R222, R243). -/

namespace Sys2Proof.Machine

/-- STATUS.BUSY equals `w.phase` (R40). -/
theorem State.busy_eq (s : State) : s.busy = decide (s.phase = .busy) := by
  cases h : s.phase <;> simp [State.busy, h]

/-- OP is the word modulo 16 (R80). -/
theorem opField_toNat (v : Word) : (opField v).toNat = v.toNat % 2 ^ 4 := by simp [opField]

/-- Every command is read back from its opcode (R81). -/
theorem decodeOp_encodeOp (i : Instr) : decodeOp (encodeOp i) = some i := by cases i <;> rfl

/-- An opcode selects a command exactly if it is the command's opcode (R81). -/
theorem decodeOp_eq_some {op : BitVec 4} {i : Instr} : decodeOp op = some i ↔ op = encodeOp i := by
  revert op; cases i <;> decide

/-- The opcodes 1 to 7, and only they, select a command (R82). -/
theorem decodeOp_isSome (op : BitVec 4) : (decodeOp op).isSome = true ↔ 1 ≤ op.toNat ∧ op.toNat ≤ 7 := by
  revert op; decide

/-- R82: what the decoder does with a word. -/
theorem decodeWord_cases (v : Word) :
    (wordLegal v = true ∧ ∃ i, decodeWord v = .ok i ∧ decodeOp (opField v) = some i) ∨
    (wordLegal v = false ∧ ∃ err, decodeWord v = .error err) := by
  have h := decodeOp_isSome (opField v)
  rw [opField_toNat] at h
  unfold decodeWord wordLegal opIsCommand
  cases hr : rsvIsZero v
  · right; simp
  · cases ho : decodeOp (opField v) with
    | some i => left; simp [ho] at h ⊢; exact h
    | none => right; simp [ho] at h ⊢; omega

/-- Everything a CMD write can do while BUSY is 0 (R214, R215). -/
theorem State.issue_cases (s : State) (v : Word) :
    (wordLegal v = true ∧ s.issue v = s.accept (opField v) ∧ (decodeOp (opField v)).isSome = true) ∨
    (wordLegal v = false ∧ s.issue v = { s with illegal := true }) := by
  rcases decodeWord_cases v with ⟨h, i, hi, ho⟩ | ⟨h, err, he⟩
  · exact .inl ⟨h, by simp [State.issue, hi], by simp [ho]⟩
  · exact .inr ⟨h, by simp [State.issue, he]⟩

/-- What makes a command word legal (R82). -/
theorem wordLegal_iff (v : Word) : wordLegal v = true ↔ v.toNat / 2 ^ 4 = 0 ∧ 1 ≤ v.toNat % 2 ^ 4 ∧ v.toNat % 2 ^ 4 ≤ 7 := by
  simp [wordLegal, rsvIsZero, opIsCommand]

/-- Everything an inverse response can do (R222, R240). -/
theorem State.inverseResponse_cases (s : State) (req : Nat) (v : Word) :
    (s.invPending = true ∧ req = s.invReqs ∧ s.inverseResponse req v = { s with invPending := false, invAnswer := some v }) ∨
    (¬ (s.invPending = true ∧ req = s.invReqs) ∧ s.inverseResponse req v = s) := by
  by_cases h : s.invPending = true ∧ req = s.invReqs
  · exact .inl ⟨h.1, h.2, by simp [State.inverseResponse, h]⟩
  · refine .inr ⟨h, if_neg ?_⟩
    simpa using h

/-- Everything the wait for the inverse can do (R222). -/
theorem State.awaitInverse_cases (s : State) (m : Word) :
    (s.invPending = true ∧ s.awaitInverse m = s) ∨
    (s.invPending = false ∧ s.awaitInverse m = { s with invPending := true, invArg := m, invReqs := s.invReqs + 1 }) := by
  cases h : s.invPending <;> simp [State.awaitInverse, h]

/-- Everything a legal write can do (R217, R243). -/
theorem State.writeReg_cases (s : State) (r : Reg) (v : Word) :
    (s.phase = .busy ∧ r.guarded = true ∧ s.writeReg r v = { s with collision := true }) ∨
    (¬ (s.phase = .busy ∧ r.guarded = true) ∧ s.writeReg r v = s.storeReg r v) := by
  by_cases h : r.guarded = true ∧ s.phase = .busy
  · exact .inl ⟨h.2, h.1, if_pos (by simp [h.1, h.2, State.busy_eq])⟩
  · exact .inr ⟨fun h' => h ⟨h'.2, h'.1⟩, if_neg (by simpa [State.busy_eq] using h)⟩

/-- An idle machine performs every legal write (R243). -/
theorem State.writeReg_idle {s : State} (h : s.phase = .idle) (r : Reg) (v : Word) :
    s.writeReg r v = s.storeReg r v := by
  rcases s.writeReg_cases r v with ⟨hb, _⟩ | ⟨_, e⟩
  · rw [h] at hb; cases hb
  · exact e

/-- A busy machine drops the write of a guarded register and sets COLLISION (R243). -/
theorem State.writeReg_busy {s : State} (h : s.phase = .busy) {r : Reg} (hr : r.guarded = true) (v : Word) :
    s.writeReg r v = { s with collision := true } := by
  rcases s.writeReg_cases r v with ⟨_, _, e⟩ | ⟨hn, _⟩
  · exact e
  · exact absurd ⟨h, hr⟩ hn

/-- A write to STATUS, RES or a reserved offset does not depend on BUSY (R35, R33, R63). -/
theorem State.writeReg_unguarded {s : State} {r : Reg} (hr : r.guarded = false) (v : Word) :
    s.writeReg r v = s.storeReg r v := by
  rcases s.writeReg_cases r v with ⟨_, hg, _⟩ | ⟨_, e⟩
  · rw [hr] at hg; cases hg
  · exact e

/-- What makes an access legal (R62). -/
theorem Access.legal_iff (acc : Access) : acc.legal = true ↔
    acc.transfer.bytes = 8 ∧ acc.burst = false ∧ acc.off % 8 = 0 ∧ 0 ≤ acc.off ∧ acc.off < 0x80 := by
  have : decide (acc.off < Config.windowBytes) = decide (acc.off < 128) := rfl
  simp only [Access.legal, Config.accessBytes, this, Bool.and_eq_true, decide_eq_true_eq, beq_iff_eq, Bool.not_eq_true']
  tauto

/-- Everything a bus access can do: BusError, a read of 8 bytes, or a write of 8 bytes (R61, R62, R213). -/
theorem State.access_cases (s : State) (acc : Access) :
    (acc.legal = false ∧ s.access acc = s.respond acc (.busError (Config.busAddr acc.off))) ∨
    (acc.legal = true ∧ acc.transfer = .read 8 ∧ s.access acc = s.respond acc (.data (toLanes (s.readReg (regAt acc.off))))) ∨
    (acc.legal = true ∧ ∃ lanes, acc.transfer = .write lanes ∧ lanes.length = 8 ∧
      s.access acc = (s.writeReg (regAt acc.off) (ofLanes lanes)).respond acc .normal) := by
  cases hl : acc.legal
  · exact .inl ⟨rfl, by simp [State.access, hl]⟩
  · have h8 := (acc.legal_iff.mp hl).1
    cases ht : acc.transfer with
    | read k =>
      rw [ht] at h8
      exact .inr (.inl ⟨rfl, by rw [show k = 8 from h8], by simp [State.access, hl, ht]⟩)
    | write lanes =>
      rw [ht] at h8
      exact .inr (.inr ⟨rfl, lanes, rfl, h8, by simp [State.access, hl, ht]⟩)

/-- The write of 8 lanes at an offset of the window (R61). -/
theorem State.access_write {s : State} {m : Nat} {off : Int} {lanes : List Byte} (h8 : off % 8 = 0) (h0 : 0 ≤ off)
    (h1 : off < 0x80) (hl : lanes.length = 8) :
    s.access (writeOf m off lanes) =
      (s.writeReg (regAt off) (ofLanes lanes)).respond (writeOf m off lanes) .normal := by
  have : (writeOf m off lanes).legal = true := (Access.legal_iff _).mpr ⟨hl, rfl, h8, h0, h1⟩
  simp [State.access, this]; rfl

/-- What a bus access can change while BUSY is 1 (R243). -/
theorem State.access_busy {s : State} (hb : s.phase = .busy) (acc : Access) :
    ∃ d i c r, s.access acc = { s with done := d, illegal := i, collision := c, reply := r } := by
  rcases s.access_cases acc with ⟨_, e⟩ | ⟨_, _, e⟩ | ⟨_, lanes, _, _, e⟩
  · exact ⟨_, _, _, _, e⟩
  · exact ⟨_, _, _, _, e⟩
  · cases hg : (regAt acc.off).guarded
    · rw [e, State.writeReg_unguarded hg]
      cases hreg : regAt acc.off <;> rw [hreg] at hg <;> first | (exact absurd hg (by decide)) | exact ⟨_, _, _, _, rfl⟩
    · rw [e, State.writeReg_busy hb hg]; exact ⟨_, _, _, _, rfl⟩

/-- No bus access changes RES or the inverse port (R33, R222). -/
theorem State.access_port (s : State) (acc : Access) :
    (s.access acc).res = s.res ∧ (s.access acc).invReqs = s.invReqs ∧ (s.access acc).invPending = s.invPending := by
  rcases s.access_cases acc with ⟨_, e⟩ | ⟨_, _, e⟩ | ⟨_, lanes, _, _, e⟩ <;> rw [e]
  · simp
  · simp
  rcases s.writeReg_cases (regAt acc.off) (ofLanes lanes) with ⟨_, _, e⟩ | ⟨hg, e⟩ <;> rw [e]
  · simp
  cases regAt acc.off <;> simp [State.storeReg]
  rcases s.issue_cases (ofLanes lanes) with ⟨_, e, ho⟩ | ⟨_, e⟩ <;> rw [e] <;> simp

/-- A bus access leaves BUSY, or is the acceptance of a command (R37, R215). -/
theorem State.access_phase (s : State) (acc : Access) :
    (s.access acc).phase = s.phase ∨
    (s.phase = .idle ∧ (s.access acc).phase = .busy ∧ ∃ lanes i, acc = writeOf acc.master 0 lanes ∧
      lanes.length = 8 ∧ decode lanes = .ok i ∧ (s.access acc).op = encodeOp i ∧ (s.access acc).done = false) := by
  rcases s.access_cases acc with ⟨_, e⟩ | ⟨_, _, e⟩ | ⟨hl, lanes, ht, hlen, e⟩
  · left; rw [e]; rfl
  · left; rw [e]; rfl
  rcases s.writeReg_cases (regAt acc.off) (ofLanes lanes) with ⟨_, _, e'⟩ | ⟨hg, e'⟩
  · left; rw [e, e']; rfl
  have hoff : regAt acc.off = .cmd → acc.off = 0 := by
    unfold regAt; intro h
    by_contra hne
    rw [if_neg hne] at h
    repeat' split at h
    all_goals cases h
  cases hreg : regAt acc.off <;> rw [hreg] at hg e e' <;> try (left; rw [e, e']; rfl)
  simp only [State.storeReg] at e'
  rcases decodeWord_cases (ofLanes lanes) with ⟨hw, i, hi, ho⟩ | ⟨hw, err, he⟩
  · rcases s.issue_cases (ofLanes lanes) with ⟨_, e2, _⟩ | ⟨h, _⟩
    · right
      refine ⟨?_, by rw [e, e', e2]; rfl, lanes, i, ?_, hlen, ?_, ?_, by rw [e, e', e2]; rfl⟩
      · cases hp : s.phase
        · rfl
        · exact absurd ⟨hp, rfl⟩ hg
      · have hb := ((Access.legal_iff _).mp hl).2.1
        have h0 := hoff hreg
        cases acc; simp_all [writeOf]
      · simp [decode, hlen, hi]
      · rw [e, e', e2]; exact decodeOp_eq_some.mp ho
    · rw [hw] at h; cases h
  · rcases s.issue_cases (ofLanes lanes) with ⟨h, _⟩ | ⟨_, e2⟩
    · rw [hw] at h; cases h
    · left; rw [e, e', e2]; rfl

end Sys2Proof.Machine
end

