-- ==== Sys2Proof/Laws/Loop.lean ====
section
/-! SUPPORT. The exponentiation loop (R140, R160): its value by a homomorphism, its frame, its count (R141). -/

namespace Sys2Proof.Machine

/-- A shift right by one halves. -/
theorem ushift1 (f : Word) : (f >>> 1).toNat = f.toNat / 2 := by simp [Nat.shiftRight_eq_div_pow]
/-- The lowest bit is the remainder modulo 2. -/
theorem bit0 (f : Word) : bit f 0 = decide (f.toNat % 2 = 1) := by
  simp [bit, BitVec.getLsbD, Nat.testBit_zero]

/-- The loop of R140 and R160 computes `res * sq ^ f` under every `φ` that turns `mul` into a commutative product on the
values that satisfy `P`. -/
theorem powLoop_pow {M : Type*} [CommMonoid M] {mul : Word → Word → Word} {P : Word → Prop} {φ : Word → M}
    (hP : ∀ x y, P x → P y → P (mul x y)) (hφ : ∀ x y, P x → P y → φ (mul x y) = φ x * φ y) :
    ∀ (fuel : Nat) (w : Work), P w.res → P w.sq → w.f.toNat < 2 ^ (fuel + 1) →
      P (powLoop mul (fuel + 1) w).res ∧ φ (powLoop mul (fuel + 1) w).res = φ w.res * φ w.sq ^ w.f.toNat := by
  intro fuel
  induction fuel with
  | zero =>
    intro w hr hs hf
    have h0 : w.f >>> 1 = 0 := BitVec.eq_of_toNat_eq (by rw [ushift1]; simp; omega)
    simp only [powLoop, h0, if_true, bit0]
    have : w.f.toNat = 0 ∨ w.f.toNat = 1 := by omega
    rcases this with h | h <;> simp [h, hP, hφ, hr, hs]
  | succ k ih =>
    intro w hr hs hf
    rw [powLoop]
    have hres : P (if bit w.f 0 then mul w.res w.sq else w.res) := by split <;> simp_all
    have hval : φ (if bit w.f 0 then mul w.res w.sq else w.res) = φ w.res * φ w.sq ^ (w.f.toNat % 2) := by
      rw [bit0]
      rcases Nat.mod_two_eq_zero_or_one w.f.toNat with h | h <;> simp [h, hφ _ _ hr hs]
    by_cases h0 : w.f >>> 1 = 0
    · simp only [h0, if_true]
      refine ⟨hres, hval.trans ?_⟩
      have := ushift1 w.f
      rw [h0] at this
      simp at this
      have : w.f.toNat % 2 = w.f.toNat := by omega
      rw [this]
    · simp only [h0, if_false]
      obtain ⟨h1, h2⟩ := ih { w with iter := w.iter + 1, res := if bit w.f 0 then mul w.res w.sq else w.res, f := w.f >>> 1, sq := mul w.sq w.sq } hres (hP _ _ hs hs) (by simp only [ushift1]; omega)
      refine ⟨h1, h2.trans ?_⟩
      simp only [hval, hφ _ _ hs hs, ushift1]
      rw [← pow_two, ← pow_mul, mul_assoc, ← pow_add]
      congr 2; omega

/-- The loop writes only its own four registers. -/
theorem powLoop_frame (mul : Word → Word → Word) : ∀ (fuel : Nat) (w : Work),
    powLoop mul fuel w = { w with
      res := (powLoop mul fuel w).res, sq := (powLoop mul fuel w).sq
      f := (powLoop mul fuel w).f, iter := (powLoop mul fuel w).iter } := by
  intro fuel
  induction fuel with
  | zero => intro w; rfl
  | succ k ih =>
    intro w
    rw [powLoop]
    by_cases h0 : w.f >>> 1 = 0
    · simp only [h0, if_true]
    · simp only [h0, if_false]
      rw [ih]

/-- The body of the loop runs `max(bitlen f, 1)` times (R141). -/
theorem powLoop_iter {mul : Word → Word → Word} :
    ∀ (fuel : Nat) (w : Work), w.f.toNat < 2 ^ (fuel + 1) →
      (powLoop mul (fuel + 1) w).iter = w.iter + BitVec.ofNat 7 (max w.f.toNat.size 1) := by
  intro fuel
  induction fuel with
  | zero =>
    intro w hf
    have h0 : w.f >>> 1 = 0 := BitVec.eq_of_toNat_eq (by rw [ushift1]; simp; omega)
    simp only [powLoop, h0, if_true]
    have : w.f.toNat = 0 ∨ w.f.toNat = 1 := by omega
    rcases this with h | h <;> simp [h]
  | succ k ih =>
    intro w hf
    rw [powLoop]
    by_cases h0 : w.f >>> 1 = 0
    · simp only [h0, if_true]
      have := ushift1 w.f
      rw [h0] at this
      simp at this
      have : w.f.toNat = 0 ∨ w.f.toNat = 1 := by omega
      rcases this with h | h <;> simp [h]
    · simp only [h0, if_false]
      rw [ih _ (by simp only [ushift1]; omega)]
      have h1 : w.f.toNat / 2 ≠ 0 := fun h => h0 (BitVec.eq_of_toNat_eq (by rw [ushift1, h]; rfl))
      have hs : w.f.toNat.size = (w.f.toNat / 2).size + 1 := by
        have := Nat.size_bit (b := w.f.toNat.bodd) (n := w.f.toNat.div2) (by rw [Nat.bit_bodd_div2]; omega)
        rw [Nat.bit_bodd_div2, Nat.div2_val] at this
        exact this
      have h2 : 0 < (w.f.toNat / 2).size := Nat.size_pos.mpr (by omega)
      simp only [ushift1, hs]
      rw [BitVec.add_assoc]
      congr 1
      rw [Nat.max_eq_left (by omega), Nat.max_eq_left (by omega), Nat.add_comm, BitVec.ofNat_add]
      rfl

end Sys2Proof.Machine
end

