-- ==== Sys2Proof/Laws/Redc.lean ====
section
/-! SUPPORT. The REDC step: its sum is a multiple of `2^64`, its correction does not wrap, its result is congruent
(spec/41_montgomery_multiply.md R122, R123; spec/40_conversion.md R105, R107). -/

namespace Sys2Proof.Machine

/-- `(-v) mod 2^64` is below `2^64`. -/
theorem neg64_lt (v : Nat) : neg64 v < 2 ^ 64 := Nat.mod_lt _ (by norm_num)

/-- `(-v) mod 2^64` cancels `v` modulo `2^64`. -/
theorem add_neg64 (v : Nat) : (v + neg64 v) % 2 ^ 64 = 0 := by
  unfold neg64; omega

/-- The low 64 bits of the REDC sum are 0 when `ninv` is the inverse of `n` (R122). -/
theorem dvd_redc_sum {p n ninv : Nat} (h : (n * ninv) % 2 ^ 64 = 1) :
    2 ^ 64 ∣ p + (neg64 p * ninv) % 2 ^ 64 * n := by
  have h1 : (neg64 p * ninv) % 2 ^ 64 * n ≡ neg64 p [MOD 2 ^ 64] := by
    calc (neg64 p * ninv) % 2 ^ 64 * n
        ≡ neg64 p * ninv * n [MOD 2 ^ 64] := (Nat.mod_modEq _ _).mul_right n
      _ = neg64 p * (n * ninv) := by ring
      _ ≡ neg64 p * 1 [MOD 2 ^ 64] := Nat.ModEq.mul_left _ (by rw [Nat.ModEq, h]; norm_num)
      _ = neg64 p := by ring
  have h2 : p + (neg64 p * ninv) % 2 ^ 64 * n ≡ 0 [MOD 2 ^ 64] :=
    (h1.add_left p).trans (by rw [Nat.ModEq, add_neg64]; rfl)
  exact (Nat.modEq_zero_iff_dvd).mp h2

/-- The REDC sum fits 129 bits (R120). -/
theorem redc_sum_lt {p m n : Nat} (hp : p ≤ (2 ^ 64 - 1) * (2 ^ 64 - 1)) (hm : m < 2 ^ 64) (hn : n < 2 ^ 64) :
    p + m * n < 2 ^ 129 := by
  have : m * n ≤ (2 ^ 64 - 1) * (2 ^ 64 - 1) := Nat.mul_le_mul (by omega) (by omega)
  norm_num at *
  omega

/-- The upper part of the REDC sum is at most `2^64 - 2 + n` (R122). -/
theorem redc_hi_le {p m n : Nat} (hp : p ≤ (2 ^ 64 - 1) * (2 ^ 64 - 1)) (hm : m < 2 ^ 64) (hn : 2 ≤ n) (hd : 2 ^ 64 ∣ p + m * n) :
    (p + m * n) / 2 ^ 64 ≤ 2 ^ 64 - 2 + n := by
  have : m * n ≤ (2 ^ 64 - 1) * n := Nat.mul_le_mul_right n (by omega)
  obtain ⟨q, hq⟩ := hd
  rw [hq, Nat.mul_div_cancel_left _ (by norm_num)]
  norm_num at *
  omega

/-- Adding `2^64 mod n` to `hi <= n - 2` does not wrap (R122). -/
theorem redc_no_wrap {hi n : Nat} (hn : n < 2 ^ 64) (h2 : 2 ≤ n) (hhi : hi ≤ n - 2) : hi + 2 ^ 64 % n < 2 ^ 64 := by
  by_cases h : 2 ^ 63 < n
  · have : 2 ^ 64 % n = 2 ^ 64 - n := by
      rw [Nat.mod_eq_sub_mod (by omega), Nat.mod_eq_of_lt (by omega)]
    omega
  · have := Nat.mod_lt (2 ^ 64) (show n > 0 by omega)
    omega

/-- In a consistent context a REDC step gives a value congruent to `p * Rinv` (R122, R123). -/
theorem redc_modEq {p : Nat} {n ninv rmodn : Word} (hp : p ≤ (2 ^ 64 - 1) * (2 ^ 64 - 1))
    (h3 : 3 ≤ n.toNat) (hinv : Config.InvContract n ninv) (hr : rmodn.toNat = 2 ^ 64 % n.toNat) :
    (redc p n ninv rmodn).toNat * 2 ^ 64 ≡ p [MOD n.toNat] := by
  have hd := dvd_redc_sum (p := p) hinv
  have hn := n.isLt
  have hm : (neg64 p * ninv.toNat) % 2 ^ 64 < 2 ^ 64 := Nat.mod_lt _ (by norm_num)
  have hs : p + (neg64 p * ninv.toNat) % 2 ^ 64 * n.toNat ≡ p [MOD n.toNat] := by
    simp [Nat.ModEq]
  have hle := redc_hi_le hp hm (by omega : 2 ≤ n.toNat) hd
  have hlt := redc_sum_lt hp hm hn
  unfold redc
  generalize (neg64 p * ninv.toNat) % 2 ^ 64 = m at *
  obtain ⟨q, hq⟩ := hd
  simp only [hq] at hs hle hlt ⊢
  rw [Nat.mul_div_cancel_left _ (by norm_num)] at hle ⊢
  split
  · next hc =>
    have hq1 : 2 ^ 64 ≤ q := by omega
    have hq2 : q < 2 ^ 65 := by omega
    have hhi : q % 2 ^ 64 = q - 2 ^ 64 := by omega
    have hw := redc_no_wrap hn (by omega) (show q - 2 ^ 64 ≤ n.toNat - 2 by omega)
    rw [hhi, hr, BitVec.toNat_ofNat, Nat.mod_eq_of_lt hw]
    have : (q - 2 ^ 64 + 2 ^ 64 % n.toNat) ≡ q [MOD n.toNat] := by
      calc q - 2 ^ 64 + 2 ^ 64 % n.toNat ≡ q - 2 ^ 64 + 2 ^ 64 [MOD n.toNat] := (Nat.mod_modEq _ _).add_left _
        _ = q := by omega
    exact ((this.mul_right _).trans (by rw [Nat.mul_comm]; exact hs))
  · next hc =>
    have hq1 : q < 2 ^ 64 := by omega
    rw [BitVec.toNat_ofNat, Nat.mod_eq_of_lt (Nat.mod_lt _ (by norm_num)), Nat.mod_eq_of_lt hq1, Nat.mul_comm]
    exact hs

/-- In a consistent context REDC_MUL gives a value congruent to `x * y * Rinv` (R123). -/
theorem redcMul_modEq {x y n ninv rmodn : Word}
    (h3 : 3 ≤ n.toNat) (hinv : Config.InvContract n ninv) (hr : rmodn.toNat = 2 ^ 64 % n.toNat) :
    (redcMul x y n ninv rmodn).toNat * 2 ^ 64 ≡ x.toNat * y.toNat [MOD n.toNat] :=
  redc_modEq (Nat.mul_le_mul (by have := x.isLt; omega) (by have := y.isLt; omega)) h3 hinv hr

/-- The REDC step of one word never carries out of 128 bits (R105). -/
theorem redc_single (ar n ninv rmodn : Word) :
    redc ar.toNat n ninv rmodn = BitVec.ofNat 64 ((ar.toNat + (neg64 ar.toNat * ninv.toNat) % 2 ^ 64 * n.toNat) / 2 ^ 64) := by
  have hm : (neg64 ar.toNat * ninv.toNat) % 2 ^ 64 ≤ 2 ^ 64 - 1 := by omega
  have : (neg64 ar.toNat * ninv.toNat) % 2 ^ 64 * n.toNat ≤ (2 ^ 64 - 1) * (2 ^ 64 - 1) :=
    Nat.mul_le_mul hm (by have := n.isLt; omega)
  have := ar.isLt
  simp only [redc]
  generalize (neg64 ar.toNat * ninv.toNat) % 2 ^ 64 * n.toNat = z at *
  rw [if_neg (by norm_num at *; omega)]
  rw [Nat.mod_eq_of_lt (by norm_num at *; omega)]

end Sys2Proof.Machine
end

