-- ==== Sys2Proof/Laws/Montgomery.lean ====
section
/-! SUPPORT. What words represent in the Montgomery domain, and the Montgomery path (R143, R107, R181). -/

namespace Sys2Proof.Machine

/-- `R mod n` is `2^64 mod n` (R101). -/
theorem rModN_toNat (n : Word) (h : 0 < n.toNat) : (rModN n).toNat = 2 ^ 64 % n.toNat := by
  have := Nat.mod_lt (2 ^ 64) h
  have := n.isLt
  rw [rModN, BitVec.toNat_ofNat, Nat.mod_eq_of_lt (by omega)]

/-- A remainder modulo a register value fits a register. -/
theorem toNat_ofNat_mod (v : Nat) (n : Word) (h : 0 < n.toNat) : (BitVec.ofNat 64 (v % n.toNat)).toNat = v % n.toNat := by
  have := Nat.mod_lt v h
  have := n.isLt
  rw [BitVec.toNat_ofNat, Nat.mod_eq_of_lt (by omega)]

/-- A power of two and an odd number are coprime. -/
theorem coprime_two_pow {n : Nat} (h : n % 2 = 1) (k : Nat) : Nat.Coprime (2 ^ k) n :=
  Nat.Coprime.pow_left k ((Nat.coprime_two_left).mpr (Nat.odd_iff.mpr h))

/-- The residue modulo `n` that a word represents in the Montgomery domain (R143). -/
def repr64 (n : Nat) (x : Word) : ZMod n := (x.toNat : ZMod n) * ((2 ^ 64 : Nat) : ZMod n)⁻¹

/-- What a word represents, times `R`, is the word modulo `n`. -/
theorem repr64_mul_R {n : Nat} (h : n % 2 = 1) (x : Word) : repr64 n x * ((2 ^ 64 : Nat) : ZMod n) = (x.toNat : ZMod n) := by
  rw [repr64, mul_assoc, mul_comm (_⁻¹), ZMod.coe_mul_inv_eq_one _ (coprime_two_pow h 64), mul_one]

/-- `R` can be cancelled modulo an odd `n`. -/
theorem R_cancel {n : Nat} (h : n % 2 = 1) {x y : ZMod n} (hxy : x * ((2 ^ 64 : Nat) : ZMod n) = y * ((2 ^ 64 : Nat) : ZMod n)) : x = y := by
  have := congrArg (· * ((2 ^ 64 : Nat) : ZMod n)⁻¹) hxy
  simpa only [mul_assoc, ZMod.coe_mul_inv_eq_one _ (coprime_two_pow h 64), mul_one] using this

/-- REDC_MUL multiplies what its operands represent (R123). -/
theorem repr64_redcMul {n ninv rmodn : Word} (h1 : n.toNat % 2 = 1)
    (h3 : 3 ≤ n.toNat) (hinv : Config.InvContract n ninv) (hr : rmodn.toNat = 2 ^ 64 % n.toNat) (x y : Word) :
    repr64 n.toNat (redcMul x y n ninv rmodn) = repr64 n.toNat x * repr64 n.toNat y := by
  have h := (ZMod.natCast_eq_natCast_iff _ _ _).mpr (redcMul_modEq (x := x) (y := y) h3 hinv hr)
  rw [Nat.cast_mul, Nat.cast_mul] at h
  apply R_cancel h1
  rw [repr64_mul_R h1]
  apply R_cancel h1
  rw [h, ← repr64_mul_R h1 x, ← repr64_mul_R h1 y]; ring

/-- `R mod n` represents 1. -/
theorem repr64_rmodn {n rmodn : Word} (h1 : n.toNat % 2 = 1) (hr : rmodn.toNat = 2 ^ 64 % n.toNat) :
    repr64 n.toNat rmodn = 1 := by
  apply R_cancel h1
  rw [repr64_mul_R h1, hr, ZMod.natCast_mod, one_mul]

/-- MONT_POW_CORE raises what `ar` represents to the power `e` (R143). -/
theorem montPowCore_modEq {ar e n ninv rmodn : Word} {w : Work} (h1 : n.toNat % 2 = 1)
    (h3 : 3 ≤ n.toNat) (hinv : Config.InvContract n ninv) (hr : rmodn.toNat = 2 ^ 64 % n.toNat) :
    repr64 n.toNat (montPowCore ar e n ninv rmodn w).1 = repr64 n.toNat ar ^ e.toNat := by
  have h := (powLoop_pow (P := fun _ => True) (φ := repr64 n.toNat) (mul := fun x y => redcMul x y n ninv rmodn)
    (fun _ _ _ _ => trivial) (fun x y _ _ => repr64_redcMul h1 h3 hinv hr x y) 63
    { w with res := rmodn, sq := ar, f := e, iter := 0 } trivial trivial (by simpa using e.isLt)).2
  simp only [repr64_rmodn h1 hr, one_mul] at h
  rw [← h]
  simp only [montPowCore, repr64]
  rw [toNat_ofNat_mod _ _ (by omega), ZMod.natCast_mod]; rfl

/-- MONT_POW_CORE returns a reduced value (R140). -/
theorem montPowCore_lt {ar e n ninv rmodn : Word} {w : Work} (h : 0 < n.toNat) :
    (montPowCore ar e n ninv rmodn w).1.toNat < n.toNat := by
  simp only [montPowCore]; rw [toNat_ofNat_mod _ _ h]; exact Nat.mod_lt _ h

/-- FROM_MONT past its guard, as one division and one remainder (R104, R105). -/
theorem redcReduce_eq (ar n ninv rmodn : Word) (h : 0 < n.toNat) : (redcReduce ar n ninv rmodn).toNat =
    (ar.toNat + (neg64 ar.toNat * ninv.toNat) % 2 ^ 64 * n.toNat) / 2 ^ 64 % n.toNat := by
  rw [redcReduce, toNat_ofNat_mod _ _ h, redc_single, BitVec.toNat_ofNat]
  congr 1
  apply Nat.mod_eq_of_lt
  have hm : (neg64 ar.toNat * ninv.toNat) % 2 ^ 64 ≤ 2 ^ 64 - 1 := by omega
  have : (neg64 ar.toNat * ninv.toNat) % 2 ^ 64 * n.toNat ≤ (2 ^ 64 - 1) * (2 ^ 64 - 1) :=
    Nat.mul_le_mul hm (by have := n.isLt; omega)
  have := ar.isLt
  generalize (neg64 ar.toNat * ninv.toNat) % 2 ^ 64 * n.toNat = z at *
  norm_num at *; omega

/-- FROM_MONT past its guard gives what `ar` represents (R107). -/
theorem redcReduce_repr {ar n ninv rmodn : Word} (h1 : n.toNat % 2 = 1) (hinv : Config.InvContract n ninv) :
    ((redcReduce ar n ninv rmodn).toNat : ZMod n.toNat) = repr64 n.toNat ar := by
  rw [redcReduce_eq _ _ _ _ (by omega), ZMod.natCast_mod]
  obtain ⟨q, hq⟩ := dvd_redc_sum (p := ar.toNat) hinv
  apply R_cancel h1
  rw [repr64_mul_R h1, hq, Nat.mul_div_cancel_left _ (by norm_num), ← Nat.cast_mul, Nat.mul_comm q, ← hq]
  simp

/-- ODD_CORE gives `a^e mod n` (R181). -/
theorem oddCore_eq {a e n inv : Word} {w : Work} (h1 : n.toNat % 2 = 1) (h3 : 3 ≤ n.toNat) (hinv : Config.InvContract n inv) :
    (oddCore a e n inv w).1.toNat = a.toNat ^ e.toNat % n.toNat := by
  have hp : 0 < n.toNat := by omega
  have hr := rModN_toNat n hp
  set w1 : Work := { w with ctxR := rModN n, ctxInv := inv } with hw1
  have hlt : ∀ v, v % n.toNat < n.toNat := fun v => Nat.mod_lt _ hp
  have hm := montPowCore_modEq (ar := mulMod a (rModN n) n) (e := e) (w := w1) h1 h3 hinv hr
  have hred := redcReduce_repr (ar := (montPowCore (mulMod a (rModN n) n) e n inv (rModN n) w1).1) (rmodn := 0) h1 hinv
  have hval : (oddCore a e n inv w).1.toNat = (redcReduce (montPowCore (mulMod a (rModN n) n) e n inv (rModN n) w1).1 n inv 0).toNat := by
    have hc : (montPowCore (mulMod a (rModN n) n) e n inv (rModN n) w1).2.ctxInv = inv := by
      simp only [montPowCore]; rw [powLoop_frame]
    rw [redcReduce_eq _ _ _ _ hp]
    simp only [oddCore]
    rw [toNat_ofNat_mod _ _ hp, ← hw1, hc]
  have ha : repr64 n.toNat (mulMod a (rModN n) n) = (a.toNat : ZMod n.toNat) := by
    apply R_cancel h1
    rw [repr64_mul_R h1, mulMod, toNat_ofNat_mod _ _ hp, ZMod.natCast_mod, hr, Nat.cast_mul, ZMod.natCast_mod]
  have hz : (((oddCore a e n inv w).1.toNat : Nat) : ZMod n.toNat) = ((a.toNat ^ e.toNat : Nat) : ZMod n.toNat) := by
    rw [hval, hred, hm, ha, Nat.cast_pow]
  have hb : (oddCore a e n inv w).1.toNat < n.toNat := by
    rw [hval, redcReduce_eq _ _ _ _ hp]; exact hlt _
  exact (Nat.mod_eq_of_lt hb).symm.trans ((ZMod.natCast_eq_natCast_iff _ _ _).mp hz)

end Sys2Proof.Machine
end

