-- ==== Sys2Proof/Laws/Pow.lean ====
section
/-! SUPPORT. The general loop and the even path (spec/43_general_pow.md R160, R161; spec/44_dispatch.md R186, R187, R190, R192). -/

namespace Sys2Proof.Machine

/-- No product of two reduced values overflows its tier (R161). -/
theorem tierMul_eq {n x y : Word} (hx : x.toNat < n.toNat) (hy : y.toNat < n.toNat) :
    (tierMul n x y).toNat = x.toNat * y.toNat % n.toNat := by
  have hp : 0 < n.toNat := by omega
  rw [tierMul, toNat_ofNat_mod _ _ hp]
  congr 1
  apply Nat.mod_eq_of_lt
  have hn := n.isLt
  have h := Nat.mul_le_mul (show x.toNat ≤ n.toNat - 1 by omega) (show y.toNat ≤ n.toNat - 1 by omega)
  unfold tierBits
  split
  · next h32 => exact lt_of_le_of_lt (h.trans (Nat.mul_le_mul (show n.toNat - 1 ≤ 2 ^ 32 by omega) (show n.toNat - 1 ≤ 2 ^ 32 - 1 by omega))) (by norm_num)
  · exact lt_of_le_of_lt (h.trans (Nat.mul_le_mul (show n.toNat - 1 ≤ 2 ^ 64 by omega) (show n.toNat - 1 ≤ 2 ^ 64 - 1 by omega))) (by norm_num)

/-- POW_CORE gives `x^e mod n` (R163). -/
theorem powCore_eq {x e n : Word} {w : Work} (h : 2 ≤ n.toNat) :
    (powCore x e n w).1.toNat = x.toNat ^ e.toNat % n.toNat := by
  have hp : 0 < n.toNat := by omega
  have hx : (BitVec.ofNat 64 (x.toNat % n.toNat)).toNat = x.toNat % n.toNat := toNat_ofNat_mod _ _ hp
  obtain ⟨h1, h2⟩ := powLoop_pow (P := fun v => v.toNat < n.toNat) (φ := fun v => (v.toNat : ZMod n.toNat)) (mul := tierMul n)
    (fun x y hx hy => by rw [tierMul_eq hx hy]; exact Nat.mod_lt _ hp)
    (fun x y hx hy => by simp only [tierMul_eq hx hy, ZMod.natCast_mod, Nat.cast_mul]) 63
    { w with res := 1, sq := BitVec.ofNat 64 (x.toNat % n.toNat), f := e, iter := 0 } (show 1 < n.toNat by omega) (by simp only [hx]; exact Nat.mod_lt _ hp) (by simpa using e.isLt)
  have h3 : ((powCore x e n w).1.toNat : ZMod n.toNat) = ((x.toNat ^ e.toNat : Nat) : ZMod n.toNat) := by
    refine h2.trans ?_
    simp only [hx, ZMod.natCast_mod]; simp
  exact (Nat.mod_eq_of_lt h1).symm.trans ((ZMod.natCast_eq_natCast_iff _ _ _).mp h3)

/-- The counted zero bits are the exponent of two in a value that is not 0. -/
theorem ctzNat_spec : ∀ (fuel v : Nat), 0 < v → v < 2 ^ fuel → ∃ m, v = 2 ^ ctzNat fuel v * m ∧ m % 2 = 1 ∧ ctzNat fuel v < fuel := by
  intro fuel
  induction fuel with
  | zero => intro v h0 h; simp at h; omega
  | succ k ih =>
    intro v h0 h
    by_cases hv : v % 2 = 1
    · exact ⟨v, by simp [ctzNat, hv], hv, by simp [ctzNat, hv]⟩
    · obtain ⟨m, hm, hm1, hk⟩ := ih (v / 2) (by omega) (by omega)
      refine ⟨m, ?_, hm1, ?_⟩
      · simp only [ctzNat, hv, if_false, pow_add, pow_one]
        rw [mul_assoc, ← hm]; omega
      · simp only [ctzNat, hv, if_false]; omega

/-- `n = 2^ctz(n) * m` with `m` odd and `ctz(n) <= 63` (R186, R192). -/
theorem ctz_spec {n : Word} (h : 0 < n.toNat) : n.toNat = 2 ^ ctz n * (oddPart n).toNat ∧ (oddPart n).toNat % 2 = 1 ∧ ctz n ≤ 63 := by
  obtain ⟨m, hm, hm1, hk⟩ := ctzNat_spec 64 n.toNat h n.isLt
  have : (oddPart n).toNat = m := by
    rw [oddPart, BitVec.toNat_ushiftRight, Nat.shiftRight_eq_div_pow, ctz]
    exact Nat.div_eq_of_eq_mul_right (by positivity) hm
  rw [this]
  exact ⟨hm, hm1, by unfold ctz; omega⟩

/-- An even value has a trailing zero bit. -/
theorem ctz_pos_of_even {n : Word} (h : n.toNat % 2 = 0) : 1 ≤ ctz n := by
  simp [ctz, ctzNat, h]

/-- For odd `a` the exponent may be reduced modulo `2^(k-1)` (R186, R190). -/
theorem odd_pow_mod_two_pow {a k : Nat} (ha : a % 2 = 1) (hk : 1 ≤ k) (e : Nat) :
    a ^ (e % 2 ^ (k - 1)) ≡ a ^ e [MOD 2 ^ k] := by
  have h : a ^ 2 ^ (k - 1) ≡ 1 [MOD 2 ^ k] := by
    have := Nat.ModEq.pow_totient ((coprime_two_pow ha k).symm)
    rwa [Nat.totient_prime_pow Nat.prime_two (by omega), Nat.mul_one] at this
  conv_rhs => rw [← Nat.div_add_mod e (2 ^ (k - 1)), pow_add, pow_mul]
  simpa using ((h.pow (e / 2 ^ (k - 1))).mul_right (a ^ (e % 2 ^ (k - 1)))).symm

/-- CRT stays below `p * m` and meets both congruences (R187, R192). -/
theorem crt_spec {r1 r2 m p inv : Word} {k : Nat} (hp : p.toNat = 2 ^ k) (hk : k ≤ 64) (hmul : p.toNat * m.toNat < 2 ^ 64)
    (h1 : r1.toNat < m.toNat ∨ (m.toNat = 1 ∧ r1.toNat = 0)) (hinv : Config.InvContract m inv) :
    (crt r1 r2 m p inv).toNat < p.toNat * m.toNat ∧ (crt r1 r2 m p inv).toNat ≡ r1.toNat [MOD m.toNat] ∧
      (crt r1 r2 m p inv).toNat ≡ r2.toNat [MOD p.toNat] := by
  have hp0 : 0 < p.toNat := by rw [hp]; positivity
  set d := (((r2.toNat : Int) - (r1.toNat : Int)) % (p.toNat : Int)).toNat with hd
  set x := (d * (inv.toNat % p.toNat)) % p.toNat with hx
  have hxlt : x < p.toNat := Nat.mod_lt _ hp0
  have hr1 : r1.toNat < m.toNat := by omega
  have hb : r1.toNat + x * m.toNat < p.toNat * m.toNat := by
    have : (x + 1) * m.toNat ≤ p.toNat * m.toNat := Nat.mul_le_mul_right _ hxlt
    rw [Nat.add_mul] at this; omega
  have hv : (crt r1 r2 m p inv).toNat = r1.toNat + x * m.toNat := by
    simp only [crt, ← hd, ← hx]
    rw [BitVec.toNat_ofNat, Nat.mod_eq_of_lt (by omega)]
  rw [hv]
  refine ⟨hb, by simp [Nat.ModEq], ?_⟩
  have hmi : inv.toNat * m.toNat ≡ 1 [MOD p.toNat] := by
    have : m.toNat * inv.toNat ≡ 1 [MOD 2 ^ 64] := by rw [Nat.ModEq, hinv]; norm_num
    have := this.of_dvd (by rw [hp]; exact pow_dvd_pow 2 hk : p.toNat ∣ 2 ^ 64)
    rwa [Nat.mul_comm]
  have hxm : x * m.toNat ≡ d [MOD p.toNat] := by
    calc x * m.toNat ≡ d * (inv.toNat % p.toNat) * m.toNat [MOD p.toNat] := (Nat.mod_modEq _ _).mul_right _
      _ ≡ d * inv.toNat * m.toNat [MOD p.toNat] := ((Nat.mod_modEq _ _).mul_left _).mul_right _
      _ = d * (inv.toNat * m.toNat) := by ring
      _ ≡ d * 1 [MOD p.toNat] := hmi.mul_left _
      _ = d := by ring
  refine (hxm.add_left _).trans ?_
  rw [← Int.natCast_modEq_iff]
  have hdd : (d : Int) = ((r2.toNat : Int) - (r1.toNat : Int)) % (p.toNat : Int) := by
    rw [hd, Int.toNat_of_nonneg (Int.emod_nonneg _ (by omega))]
  push_cast
  rw [hdd]
  calc (r1.toNat : Int) + ((r2.toNat : Int) - (r1.toNat : Int)) % (p.toNat : Int)
      ≡ r1.toNat + ((r2.toNat : Int) - (r1.toNat : Int)) [ZMOD p.toNat] := (Int.mod_modEq _ _).add_left _
    _ = r2.toNat := by ring

/-- EVEN_PATH gives `a^e mod n` (R189, R190). -/
theorem evenPath_eq {a e n inv : Word} {w : Work} (h2 : 2 ≤ n.toNat) (hev : n.toNat % 2 = 0)
    (hinv : Config.InvContract (oddPart n) inv) :
    (evenPath a e n inv w).1.toNat = a.toNat ^ e.toNat % n.toNat := by
  obtain ⟨hn, hodd, hk63⟩ := ctz_spec (n := n) (by omega)
  have hk1 := ctz_pos_of_even hev
  have hnlt := n.isLt
  simp only [evenPath]
  set k := ctz n with hkdef
  set m := oddPart n with hmdef
  have hp : (BitVec.ofNat 64 (2 ^ k)).toNat = 2 ^ k := by
    rw [BitVec.toNat_ofNat, Nat.mod_eq_of_lt (Nat.pow_lt_pow_right (by norm_num) (by omega))]
  set p := BitVec.ofNat 64 (2 ^ k) with hpdef
  have hp2 : 2 ≤ p.toNat := by
    rw [hp]; calc 2 = 2 ^ 1 := rfl
      _ ≤ 2 ^ k := Nat.pow_le_pow_right (by norm_num) hk1
  generalize hr1 : (if m.toNat < 2 then ((0 : Word), { w with k := BitVec.ofNat 64 k, m := m }) else oddCore a e m inv { w with k := BitVec.ofNat 64 k, m := m }) = q1
  have hq1 : q1.1.toNat ≡ a.toNat ^ e.toNat [MOD m.toNat] ∧ q1.1.toNat < m.toNat := by
    subst hr1
    split
    · have : m.toNat = 1 := by omega
      simp [this, Nat.modEq_one]
    · have h3 : 3 ≤ m.toNat := by omega
      simp only [oddCore_eq hodd h3 hinv]
      exact ⟨Nat.mod_modEq _ _, Nat.mod_lt _ (by omega)⟩
  obtain ⟨r1, w1⟩ := q1
  simp only at hq1 ⊢
  generalize hr2 : powCore (BitVec.ofNat 64 (a.toNat % p.toNat)) (evenExponent a e k) p { w1 with r1 := r1 } = q2
  have hq2 : q2.1.toNat ≡ a.toNat ^ e.toNat [MOD p.toNat] := by
    rw [← hr2, powCore_eq hp2, toNat_ofNat_mod _ _ (by omega)]
    refine (Nat.mod_modEq _ _).trans (((Nat.mod_modEq _ _).pow _).trans ?_)
    unfold evenExponent
    split
    · next ha =>
      have : (BitVec.ofNat 64 (e.toNat % 2 ^ (k - 1))).toNat = e.toNat % 2 ^ (k - 1) := by
        rw [BitVec.toNat_ofNat, Nat.mod_eq_of_lt (lt_of_le_of_lt (Nat.mod_le _ _) e.isLt)]
      rw [this, hp]
      exact odd_pow_mod_two_pow ha hk1 _
    · rfl
  obtain ⟨r2, w2⟩ := q2
  simp only at hq2 ⊢
  obtain ⟨hb, hc1, hc2⟩ := crt_spec (r1 := r1) (r2 := r2) (m := m) (p := p) (inv := inv) hp (by omega) (by rw [hp, ← hn]; exact hnlt) (Or.inl hq1.2) hinv
  have hco : Nat.Coprime p.toNat m.toNat := by rw [hp]; exact coprime_two_pow hodd k
  have hfin := (Nat.modEq_and_modEq_iff_modEq_mul hco).mp ⟨hc2.trans hq2, hc1.trans hq1.1⟩
  rw [hp, ← hn] at hfin hb
  exact (Nat.mod_eq_of_lt hb).symm.trans hfin

end Sys2Proof.Machine
end

