-- ==== Sys2Proof/Laws/Exec.lean ====
section
/-! SUPPORT. What the engine's turn on a command can do (R183, R216, R222), and what it leaves in the working registers (R141, R192). -/

namespace Sys2Proof.Machine

/-- The loop counter after a whole loop (R141). -/
theorem powLoop_iter_le (mul : Word → Word → Word) (w : Work) (h : w.iter = 0) :
    (powLoop mul Config.loopBound w).iter.toNat = max w.f.toNat.size 1 := by
  have hs : w.f.toNat.size ≤ 64 := Nat.size_le.mpr w.f.isLt
  rw [Config.loopBound, powLoop_iter 63 w w.f.isLt, h]
  simp; omega

/-- What MONT_POW_CORE leaves in `w.iter` and `w.k`. -/
theorem montPowCore_work (ar e n ninv rmodn : Word) (w : Work) :
    (montPowCore ar e n ninv rmodn w).2.iter.toNat = max e.toNat.size 1 ∧ (montPowCore ar e n ninv rmodn w).2.k = w.k := by
  constructor
  · exact powLoop_iter_le _ _ rfl
  · simp only [montPowCore]; rw [powLoop_frame]

/-- What POW_CORE leaves in `w.iter` and `w.k`. -/
theorem powCore_work (x e n : Word) (w : Work) :
    (powCore x e n w).2.iter.toNat = max e.toNat.size 1 ∧ (powCore x e n w).2.k = w.k := by
  constructor
  · exact powLoop_iter_le _ _ rfl
  · simp only [powCore]; rw [powLoop_frame]

/-- What ODD_CORE leaves in `w.iter` and `w.k`. -/
theorem oddCore_work (a e n inv : Word) (w : Work) :
    (oddCore a e n inv w).2.iter.toNat = max e.toNat.size 1 ∧ (oddCore a e n inv w).2.k = w.k := by
  simp only [oddCore]
  exact montPowCore_work _ _ _ _ _ { w with ctxR := rModN n, ctxInv := inv }

/-- A loop runs at most 64 times (R141). -/
theorem size_le64 (e : Word) : max e.toNat.size 1 ≤ 64 := by
  have : e.toNat.size ≤ 64 := Nat.size_le.mpr e.isLt
  omega

/-- EVEN_PATH keeps the bounds of `w.iter` and `w.k` (R141, R192). -/
theorem evenPath_work (a e n inv : Word) (w : Work) (h : 0 < n.toNat) :
    (evenPath a e n inv w).2.iter.toNat ≤ 64 ∧ (evenPath a e n inv w).2.k.toNat ≤ 63 := by
  have hk := (ctz_spec h).2.2
  have hkk : (BitVec.ofNat 64 (ctz n)).toNat ≤ 63 := by rw [BitVec.toNat_ofNat]; omega
  simp only [evenPath]
  have hk1 : (if (oddPart n).toNat < 2 then ((0 : Word), { w with k := BitVec.ofNat 64 (ctz n), m := oddPart n }) else oddCore a e (oddPart n) inv { w with k := BitVec.ofNat 64 (ctz n), m := oddPart n }).2.k = BitVec.ofNat 64 (ctz n) := by
    split
    · rfl
    · exact (oddCore_work _ _ _ _ _).2
  generalize (if (oddPart n).toNat < 2 then ((0 : Word), { w with k := BitVec.ofNat 64 (ctz n), m := oddPart n }) else oddCore a e (oddPart n) inv { w with k := BitVec.ofNat 64 (ctz n), m := oddPart n }) = q at *
  obtain ⟨hi, hk2⟩ := powCore_work (BitVec.ofNat 64 (a.toNat % (BitVec.ofNat 64 (2 ^ ctz n)).toNat)) (evenExponent a e (ctz n)) (BitVec.ofNat 64 (2 ^ ctz n)) { q.2 with r1 := q.1 }
  refine ⟨?_, ?_⟩
  · exact (le_of_eq hi).trans (size_le64 _)
  · rw [hk2]; simp only [hk1]; exact hkk

/-- Everything the engine's turn on a command can do. -/
theorem exec_cases (i : Instr) (s : State) :
    (∃ v fill w, exec i s = .next (s.complete v fill w) ∧ (i ≠ .toMont → fill = none) ∧
      (s.WorkOk → w.iter.toNat ≤ 64 ∧ w.k.toNat ≤ 63) ∧ (inverseArg i s.a s.n = none ∨ s.invAnswer.isSome = true)) ∨
    (∃ m, exec i s = .next (s.awaitInverse m) ∧ i ≠ .toMont ∧ inverseArg i s.a s.n = some m ∧ s.invAnswer = none) := by
  cases i with
  | toMont =>
    left
    simp only [exec, execToMont, toMontRule]
    split
    · exact ⟨_, _, _, rfl, by simp, id, .inl rfl⟩
    split <;> exact ⟨_, _, _, rfl, by simp, id, .inl rfl⟩
  | fromMont =>
    left
    simp only [exec, execFromMont, fromMontRule]
    split <;> exact ⟨_, _, _, rfl, by simp, id, .inl rfl⟩
  | montMul =>
    left
    simp only [exec, execMontMul, montMulRule]
    split <;> exact ⟨_, _, _, rfl, by simp, id, .inl rfl⟩
  | montPow =>
    left
    simp only [exec, execMontPow, montPowRule]
    split
    · exact ⟨_, _, _, rfl, by simp, id, .inl rfl⟩
    · refine ⟨_, _, _, rfl, by simp, fun h => ?_, .inl rfl⟩
      obtain ⟨h1, h2⟩ := montPowCore_work s.a s.e s.n s.ninv s.rmodn s.w
      exact ⟨h1 ▸ size_le64 _, h2 ▸ h.2⟩
  | genPow =>
    left
    simp only [exec, execGenPow, genPowRule]
    split
    · exact ⟨_, _, _, rfl, by simp, id, .inl rfl⟩
    split
    · exact ⟨_, _, _, rfl, by simp, id, .inl rfl⟩
    · refine ⟨_, _, _, rfl, by simp, fun h => ?_, .inl rfl⟩
      obtain ⟨h1, h2⟩ := powCore_work s.a s.e s.n s.w
      exact ⟨h1 ▸ size_le64 _, h2 ▸ h.2⟩
  | powModOdd =>
    simp only [exec, execPowModOdd, powModOddRule]
    split
    · next h => exact .inl ⟨_, _, _, rfl, by simp, id, .inl (by simp [inverseArg, TooSmall] at h ⊢; omega)⟩
    split
    · next h => exact .inl ⟨_, _, _, rfl, by simp, id, .inl (by simp [inverseArg, EvenModulus] at h ⊢; omega)⟩
    split
    · next h => exact .inl ⟨_, _, _, rfl, by simp, id, .inl (by simp [inverseArg, FixedPoint] at h ⊢; omega)⟩
    next h1 h2 h3 =>
    cases ha : s.invAnswer with
    | none =>
      refine .inr ⟨s.n, rfl, by simp, ?_, rfl⟩
      simp [inverseArg, TooSmall, EvenModulus, FixedPoint] at *; omega
    | some inv =>
      refine .inl ⟨_, _, _, rfl, by simp, fun h => ?_, .inr rfl⟩
      obtain ⟨h1, h2⟩ := oddCore_work s.a s.e s.n inv s.w
      exact ⟨h1 ▸ size_le64 _, h2 ▸ h.2⟩
  | powMod =>
    simp only [exec, execPowMod, powModRule]
    split
    · next h => exact .inl ⟨_, _, _, rfl, by simp, id, .inl (by
        simp only [inverseArg, TooSmall] at h ⊢; rw [if_neg (by omega), if_neg (by omega)])⟩
    split
    · next h => exact .inl ⟨_, _, _, rfl, by simp, id, .inl (by
        simp only [inverseArg, FixedPoint] at h ⊢; rw [if_neg (by omega), if_neg (by omega)])⟩
    split
    · next h1 h2 h3 =>
      cases ha : s.invAnswer with
      | none =>
        refine .inr ⟨oddPart s.n, rfl, by simp, ?_, rfl⟩
        simp only [inverseArg, TooSmall, EvenModulus, FixedPoint] at *
        rw [if_neg (by omega), if_pos (by omega)]
      | some inv =>
        exact .inl ⟨_, _, _, rfl, by simp, fun _ => evenPath_work _ _ _ _ _ (by omega), .inr rfl⟩
    next h1 h2 h3 =>
    cases ha : s.invAnswer with
    | none =>
      refine .inr ⟨s.n, rfl, by simp, ?_, rfl⟩
      simp only [inverseArg, TooSmall, EvenModulus, FixedPoint] at *
      rw [if_pos (by omega)]
    | some inv =>
      refine .inl ⟨_, _, _, rfl, by simp, fun h => ?_, .inr rfl⟩
      obtain ⟨h1, h2⟩ := oddCore_work s.a s.e s.n inv s.w
      exact ⟨h1 ▸ size_le64 _, h2 ▸ h.2⟩

/-- The value a command asks the inverse of is odd (R183, R222). -/
theorem inverseArg_odd {i : Instr} {a n m : Word} (h : inverseArg i a n = some m) : m.toNat % 2 = 1 := by
  cases i <;> simp only [inverseArg] at h <;> try cases h
  · split at h
    · next hc => injection h with h; rw [← h]; exact hc.1
    · cases h
  · split at h
    · next hc => injection h with h; rw [← h]; exact hc.1
    · split at h
      · next hc => injection h with h; rw [← h]; exact (ctz_spec (by omega)).2.1
      · cases h

end Sys2Proof.Machine
end

