-- ==== Sys2Proof/Laws/PerInstr.lean ====
section
/-! SUPPORT. What holds of every command as syntax, one lemma per command: its word is legal, with RSV 0, and carries
the command's opcode (spec/30_encoding.md R80, R81, R82). -/

namespace Sys2Proof.Laws.Encoding

/-- The command is well formed, and its word is legal and carries its opcode. -/
def Statement (i : Instr) : Prop :=
  i.wellFormed = true ∧ wordLegal (encodeWord i) = true ∧ opField (encodeWord i) = encodeOp i

/-- TO_MONT has opcode 1. -/
theorem toMont : Statement .toMont := by unfold Statement; decide

/-- FROM_MONT has opcode 2. -/
theorem fromMont : Statement .fromMont := by unfold Statement; decide

/-- MONT_MUL has opcode 3. -/
theorem montMul : Statement .montMul := by unfold Statement; decide

/-- MONT_POW has opcode 4. -/
theorem montPow : Statement .montPow := by unfold Statement; decide

/-- GEN_POW has opcode 5. -/
theorem genPow : Statement .genPow := by unfold Statement; decide

/-- POW_MOD_ODD has opcode 6. -/
theorem powModOdd : Statement .powModOdd := by unfold Statement; decide

/-- POW_MOD has opcode 7. -/
theorem powMod : Statement .powMod := by unfold Statement; decide

end Sys2Proof.Laws.Encoding
end

