-- ==== Sys2Proof/Laws/Step.lean ====
section
/-! SUPPORT. What a step can do, once for all (R66, R217). -/

namespace Sys2Proof.Machine

/-- Everything a step that goes on can do. -/
theorem step_cases {s t : State} (h : step s = .next t) :
    (∃ rest, s.inputs = .resetAssert :: rest ∧ t = { s with inputs := rest }.assertReset) ∨
    (∃ rest, s.inputs = .resetRelease :: rest ∧ t = { s with inputs := rest }.releaseReset) ∨
    (∃ req v rest, s.inputs = .invRsp req v :: rest ∧ t = { s with inputs := rest }.inverseResponse req v) ∨
    (∃ acc rest, s.inputs = .bus acc :: rest ∧ s.resetHeld = false ∧ t = { s with inputs := rest }.access acc) ∨
    (∃ rest, (s.inputs = [] ∧ rest = [] ∨ s.inputs = .engine :: rest) ∧
      ((s.phase = .idle ∧ t = { s with inputs := rest }) ∨
        ∃ i, s.inFlight i ∧ exec i { s with inputs := rest } = .next t)) := by
  have hs : ∀ u : State, engineTurn u = .next t → (u.phase = .idle ∧ t = u) ∨ ∃ i, u.inFlight i ∧ exec i u = .next t := by
    intro u hu
    unfold engineTurn at hu
    split at hu
    · next hp => exact .inl ⟨hp, by simpa using hu.symm⟩
    · next hp =>
      split at hu
      · next i hi => exact .inr ⟨i, ⟨hp, hi⟩, hu⟩
      · cases hu
  simp only [step, turn] at h
  split at h
  · next hi =>
    refine .inr (.inr (.inr (.inr ⟨[], .inl ⟨hi, rfl⟩, ?_⟩)))
    have hsame : { s with inputs := [] } = s := by rw [← hi]
    rw [hsame]; exact hs s h
  · next ev rest hi =>
    cases ev with
    | bus acc =>
      simp only [onInput, busTurn] at h
      split at h
      · cases h
      · next hr => exact .inr (.inr (.inr (.inl ⟨acc, rest, hi, by simpa using hr, by simpa using h.symm⟩)))
    | engine => exact .inr (.inr (.inr (.inr ⟨rest, .inr hi, hs _ h⟩)))
    | invRsp req v => exact .inr (.inr (.inl ⟨req, v, rest, hi, by simpa [onInput] using h.symm⟩))
    | resetAssert => exact .inl ⟨rest, hi, by simpa [onInput] using h.symm⟩
    | resetRelease => exact .inr (.inl ⟨rest, hi, by simpa [onInput] using h.symm⟩)

/-- A step takes the first waiting event. -/
theorem step_cons {s : State} {ev : Input} {rest : List Input} (h : s.inputs = ev :: rest) :
    step s = onInput ev { s with inputs := rest } := by
  simp [step, turn, h]

/-- A waiting bus access happens, with reset not asserted (R61, R240). -/
theorem step_bus {s : State} {acc : Access} {rest : List Input} (hr : s.resetHeld = false)
    (h : s.inputs = .bus acc :: rest) : step s = .next (State.access { s with inputs := rest } acc) := by
  rw [step_cons h]; simp [onInput, busTurn, hr]

/-- The first step of a run. -/
theorem run_ok {k : Nat} {s u : State} (h : step s = .next u) :
    Host.Core.run Sys2Proof.core (k + 1) s = Host.Core.run Sys2Proof.core k u := by
  have h' : Sys2Proof.core.step s = .next u := h
  simp only [Host.Core.run, h']

/-- A run that goes on has a first step that goes on. -/
theorem run_inv {k : Nat} {s t : State} (h : Host.Core.run Sys2Proof.core (k + 1) s = .next t) :
    ∃ u, step s = .next u ∧ Host.Core.run Sys2Proof.core k u = .next t := by
  cases hs : step s with
  | next u => exact ⟨u, rfl, by rw [← run_ok hs]; exact h⟩
  | fault r =>
    have h' : Sys2Proof.core.step s = .fault r := hs
    simp [Host.Core.run, h'] at h
  | refused r =>
    have h' : Sys2Proof.core.step s = .refused r := hs
    simp [Host.Core.run, h'] at h

end Sys2Proof.Machine
end

