-- ==== Sys2Proof/Tests/Slice0.lean ====
section
/-! SUPPORT. The author's own tests: the encodings written out from spec/30_encoding.md R81, one or two vectors of
spec/95_test_vectors.md per command, the bus vectors of its L2.2, and a witness for the hypotheses of each statement. -/

namespace Sys2Proof.Tests

open Sys2Proof Sys2Proof.Machine

/-! ### Ill-formed words, one for each check of WellFormed (R82, R84, L2.1) -/

/-- RSV is not 0: bit 4. -/
theorem test_rsv_low_refused : wordLegal 0x13 = false ∧ decodeWord 0x13 = .error .reservedBits := by decide

/-- RSV is not 0: bit 63. -/
theorem test_rsv_high_refused :
    wordLegal 0x8000000000000007 = false ∧ decodeWord 0x8000000000000007 = .error .reservedBits := by decide

/-- OP is 0. -/
theorem test_op_zero_refused : wordLegal 0x0 = false ∧ decodeWord 0x0 = .error (.reservedOp 0) := by decide

/-- OP is 8 to 15. -/
theorem test_op_high_refused :
    decodeWord 0x8 = .error (.reservedOp 8) ∧ decodeWord 0x9 = .error (.reservedOp 9) ∧
    decodeWord 0xA = .error (.reservedOp 10) ∧ decodeWord 0xB = .error (.reservedOp 11) ∧
    decodeWord 0xC = .error (.reservedOp 12) ∧ decodeWord 0xD = .error (.reservedOp 13) ∧
    decodeWord 0xE = .error (.reservedOp 14) ∧ decodeWord 0xF = .error (.reservedOp 15) := by decide

/-- Seven bytes are no command (R85). -/
theorem test_short_refused : decode [0x07, 0, 0, 0, 0, 0, 0] = .error (.badLength 7) := by decide

/-! ### Each command's word, written out from R81 -/

theorem test_decode_toMont :
    decodeWord 0b0000000000000000000000000000000000000000000000000000000000000001 = .ok .toMont := by decide

theorem test_decode_fromMont :
    decodeWord 0b0000000000000000000000000000000000000000000000000000000000000010 = .ok .fromMont := by decide

theorem test_decode_montMul :
    decodeWord 0b0000000000000000000000000000000000000000000000000000000000000011 = .ok .montMul := by decide

theorem test_decode_montPow :
    decodeWord 0b0000000000000000000000000000000000000000000000000000000000000100 = .ok .montPow := by decide

theorem test_decode_genPow :
    decodeWord 0b0000000000000000000000000000000000000000000000000000000000000101 = .ok .genPow := by decide

theorem test_decode_powModOdd :
    decodeWord 0b0000000000000000000000000000000000000000000000000000000000000110 = .ok .powModOdd := by decide

theorem test_decode_powMod :
    decodeWord 0b0000000000000000000000000000000000000000000000000000000000000111 = .ok .powMod := by decide

/-- The host's view of the decoder. -/
theorem test_table_word : decodeTableWord 64 0x3 = some .montMul ∧ decodeTableWord 64 0x13 = none := by decide

/-- A placed word is what the next step runs: a command, and a word that is none (L2.1: ILLEGAL is set). -/
theorem test_placed_word_runs :
    step (State.reset.withFetchWord 64 0x7) = exec .powMod (State.reset.withFetchWord 64 0x7) ∧
    ∃ t, step (State.reset.withFetchWord 64 0x8) = .next t ∧ t.status = 0x4 :=
  ⟨rfl, _, rfl, by decide⟩

/-! ### One or two vectors per command (L2.3 to L2.9) -/

/-- A state with operands A, B, E, N. -/
def ops (a b e n : Word) : State := { State.reset with a := a, b := b, e := e, n := n }

/-- The same with a context NINV, RMODN. -/
def ctx (ninv rmodn : Word) (s : State) : State := { s with ninv := ninv, rmodn := rmodn }

/-- Command `i` in flight, with or without the inverse unit's answer. -/
def flying (i : Instr) (answer : Option Word) (s : State) : State :=
  { s.accept (encodeOp i) with invAnswer := answer }

/-- RES and RMODN after the engine's turn, and whether it was a completion. -/
def resOf : Host.Outcome State Fault Refusal → Option (Word × Word × Bool)
  | .next t => some (t.res, t.rmodn, t.done)
  | .fault _ => none
  | .refused _ => none

/-- INV64(7), INV64(9), INV64(33), INV64(3) of spec/95_test_vectors.md. -/
def inv7 : Word := 0x6db6db6db6db6db7

def inv9 : Word := 0x8e38e38e38e38e39

def inv33 : Word := 0x0f83e0f83e0f83e1

def inv3 : Word := 0xaaaaaaaaaaaaaaab

/-- L2.3 T1 and T14: the fill, and a stale cache used as it stands. -/
theorem test_toMont :
    resOf (exec .toMont (ops 4 0 0 7)) = some (1, 2, true) ∧
    resOf (exec .toMont (ctx 0 2 (ops 4 0 0 9))) = some (8, 2, true) := by decide

/-- L2.3 T6 and T8: even `n` is the sentinel, `n = 1` is not. -/
theorem test_toMont_corners :
    resOf (exec .toMont (ops 5 0 0 8)) = some (0, 0, true) ∧
    resOf (exec .toMont (ctx 0 9 (ops 5 0 0 1))) = some (0, 9, true) := by decide

/-- L2.4: an unreduced input, and the largest one. -/
theorem test_fromMont :
    resOf (exec .fromMont (ctx inv7 2 (ops 7 0 0 7))) = some (0, 2, true) ∧
    resOf (exec .fromMont (ctx inv7 2 (ops 0xffffffffffffffff 0 0 7))) = some (4, 2, true) := by decide

/-- L2.4: an inconsistent NINV. -/
theorem test_fromMont_inconsistent : resOf (exec .fromMont (ctx 0 2 (ops 5 0 0 7))) = some (0, 2, true) := by decide

/-- L2.5: a carry out of 128 bits, with RMODN and with 0 in its place (D29). -/
theorem test_montMul_carry :
    resOf (exec .montMul (ctx 0x34115b1e5f75270d 0x3b (ops 0xffffffffffffffff 0xffffffffffffffff 0 0xffffffffffffffc5)))
      = some (0xcbeea4e1a08ad8fd, 0x3b, true) ∧
    resOf (exec .montMul (ctx 0x34115b1e5f75270d 0 (ops 0xffffffffffffffff 0xffffffffffffffff 0 0xffffffffffffffc5)))
      = some (0xcbeea4e1a08ad8c2, 0, true) := by decide

/-- L2.5: the unreduced result mod 9, and the exact value of an inconsistent context. -/
theorem test_montMul_unreduced :
    resOf (exec .montMul (ctx inv9 7 (ops 3 6 0 9))) = some (9, 7, true) ∧
    resOf (exec .montMul (ctx 1 2 (ops 3 5 0 7))) = some (6, 2, true) := by decide

/-- L2.6: the traced example, and the row where a shortcut on `ar < 2` would show (C1). -/
theorem test_montPow :
    resOf (exec .montPow (ctx inv7 2 (ops 6 0 5 7))) = some (3, 2, true) ∧
    resOf (exec .montPow (ctx inv7 2 (ops 1 0 2 7))) = some (4, 2, true) := by decide

/-- L2.7: the convention `0^0 = 0`, `e = 0` with `a mod n = 0`, and the entry reduction of C9. -/
theorem test_genPow :
    resOf (exec .genPow (ops 0 0 0 5)) = some (0, 0, true) ∧
    resOf (exec .genPow (ops 6 0 0 3)) = some (1, 0, true) ∧
    resOf (exec .genPow (ops 0xffffffffffffffff 0 2 0xffffffff)) = some (0, 0, true) := by decide

/-- L2.7: the 128-bit tier. -/
theorem test_genPow_wide : resOf (exec .genPow (ops 2 0 64 0x100000000)) = some (0, 0, true) := by decide

/-- L2.8: the row of C3, which asks for INV64(33) and leaves the host's RMODN; and an even `n`, before `a < 2`. -/
theorem test_powModOdd :
    resOf (exec .powModOdd (flying .powModOdd (some inv33) (ctx 5 6 (ops 7 0 13 33)))) = some (13, 6, true) ∧
    resOf (exec .powModOdd (ops 1 0 5 4)) = some (0, 0, true) := by decide

/-- L2.8: the request (R183). -/
theorem test_powModOdd_request : ∃ t, exec .powModOdd (flying .powModOdd none (ops 7 0 13 33)) = .next t ∧
    t.invPending = true ∧ t.invArg = 33 ∧ t.phase = .busy ∧ t.done = false := ⟨_, rfl, by decide⟩

/-- L2.9: (3, 5, 12) with INV64(3), and (2, 0, 4) with INV64(1). -/
theorem test_powMod :
    resOf (exec .powMod (flying .powMod (some inv3) (ops 3 0 5 12))) = some (3, 0, true) ∧
    resOf (exec .powMod (flying .powMod (some 1) (ops 2 0 0 4))) = some (1, 0, true) := by decide

/-- L2.9: an even modulus asks for the inverse of its odd part, also when that is 1. -/
theorem test_powMod_request : ∃ t, exec .powMod (flying .powMod none (ops 2 0 0 4)) = .next t ∧
    t.invPending = true ∧ t.invArg = 1 := ⟨_, rfl, by decide⟩

/-! ### The bus (L2.2) -/

/-- STATUS at 0xE. -/
def done0xE : State := { State.reset with done := true, illegal := true, collision := true }

/-- The three STATUS writes of L2.2. -/
theorem test_status_write :
    (done0xE.writeReg .status 0x2).status = 0xC ∧ (done0xE.writeReg .status 0x1).status = 0xE ∧
    (done0xE.writeReg .status 0xFFFFFFFFFFFFFFF0).status = 0xE := by decide

/-- The order of the checks on a busy machine: CMD and N collide, an illegal word sets no ILLEGAL (R217). -/
theorem test_busy_write :
    ∀ acc ∈ [Access.wr .n 13, Access.wr .cmd 7, Access.wr .cmd 0],
      ({ State.reset with phase := .busy, op := 3 }.access acc).status = 0x9 := by decide

/-- A short write on a busy machine is no collision: legality is checked first. -/
theorem test_busy_short_write :
    (({ State.reset with phase := .busy, op := 3 }.access
      { Access.wr .n 13 with transfer := .write [1, 2, 3, 4] }).collision) = false := by decide

/-- The lanes of `WR A, 0x1122334455667788` (R64). -/
theorem test_lanes : toLanes 0x1122334455667788 = [0x88, 0x77, 0x66, 0x55, 0x44, 0x33, 0x22, 0x11] ∧
    (State.reset.access (Access.wr .a 0x1122334455667788)).a = 0x1122334455667788 := by decide

/-! ### Witnesses: for each statement with hypotheses, a state and operands that meet all of them -/

/-- Idle, with results of an earlier command, a consistent context mod 7, and events waiting. -/
def rested (evs : List Input) : State :=
  { ctx inv7 2 (ops 3 5 6 7) with res := 4, done := true, illegal := true, inputs := evs }

/-- POW_MOD_ODD in flight on (7, 13, 33), its request outstanding and numbered 1, with events waiting. -/
def asking (evs : List Input) : State :=
  { flying .powModOdd none (ops 7 0 13 33) with invPending := true, invArg := 33, invReqs := 1, inputs := evs }

/-- The same once the inverse unit has answered. -/
def answered (evs : List Input) : State :=
  { flying .powModOdd (some inv33) (ops 7 0 13 33) with invArg := 33, invReqs := 1, inputs := evs }

theorem reset_work_ok : State.reset.WorkOk := by unfold State.WorkOk; decide

theorem asks_33 : (decodeOp 6).bind (fun i => inverseArg i 7 33) = some (33 : Word) := by decide

theorem rested_inv (evs : List Input) : (rested evs).Inv := ⟨nofun, nofun, nofun, reset_work_ok⟩

theorem asking_inv (evs : List Input) : (asking evs).Inv :=
  ⟨fun _ => ⟨rfl, rfl, rfl⟩, fun _ => ⟨⟨rfl, asks_33⟩, rfl⟩, nofun, reset_work_ok⟩

theorem answered_inv (evs : List Input) : (answered evs).Inv :=
  ⟨fun _ => ⟨rfl, rfl, rfl⟩, nofun, fun _ => ⟨rfl, asks_33⟩, reset_work_ok⟩

theorem witness_StepKeepsInvariant :
    (asking []).Inv ∧ (∃ t, step (asking []) = .next t) ∧
    (answered [.engine]).Inv ∧ (∃ t, step (answered [.engine]) = .next t) ∧
    (rested [.bus (writeOf 0 0x00 (encode .powMod))]).Inv ∧
      (∃ t, step (rested [.bus (writeOf 0 0x00 (encode .powMod))]) = .next t) :=
  ⟨asking_inv _, ⟨_, rfl⟩, answered_inv _, ⟨_, rfl⟩, rested_inv _, ⟨_, rfl⟩⟩

theorem witness_StepAlwaysGoesOn : ∃ s : State, s.Inv ∧ ¬ s.busDuringReset :=
  ⟨asking [.bus (readOf 0 0x08)], asking_inv _, nofun⟩

theorem witness_BusDuringResetRefused : ∃ (s : State) (acc : Access) (rest : List Input),
    s.resetHeld = true ∧ s.inputs = .bus acc :: rest :=
  ⟨{ State.reset with resetHeld := true, inputs := [.bus (readOf 0 0x40)] }, _, _, rfl, rfl⟩

theorem witness_ResetAssertion : ∃ (s : State) (rest : List Input), s.phase = .busy ∧ s.inputs = .resetAssert :: rest :=
  ⟨asking [.resetAssert, .resetRelease], _, rfl, rfl⟩

theorem witness_AbandonedCommandNeverCompletes : ∃ (s : State) (evs rest : List Input),
    (∀ ev ∈ evs, ev = .engine ∨ ev = .resetRelease ∨ ∃ k v, ev = .invRsp k v) ∧
    s.inputs = .resetAssert :: (evs ++ rest) :=
  ⟨asking [.resetAssert, .resetRelease, .invRsp 1 inv33, .engine], [.resetRelease, .invRsp 1 inv33, .engine], [],
    by simp, rfl⟩

/-- The late answer comes while a request that was made after the reset is outstanding. -/
theorem witness_LateAnswerIgnored : ∃ (s u t : State) (rest rest' : List Input) (steps req : Nat) (v : Word),
    s.inputs = .resetAssert :: rest ∧ step s = .next u ∧ Host.Core.run Sys2Proof.core steps u = .next t ∧
    req ≤ s.invReqs ∧ t.inputs = .invRsp req v :: rest' ∧ t.invPending = true :=
  ⟨asking [.resetAssert, .resetRelease, .bus (Access.wr .a 2), .bus (Access.wr .n 9), .bus (Access.wr .cmd 7),
      .engine, .invRsp 1 inv33], _, _, _, _, 5, 1, inv33, rfl, rfl, rfl, by decide, rfl, by decide⟩

/-- Each register's offset, the first and the last reserved one. -/
theorem witness_LegalReadReturnsRegister :
    ∀ off ∈ [(0x00 : Int), 0x08, 0x10, 0x18, 0x20, 0x28, 0x30, 0x38, 0x40, 0x48, 0x78],
      ∃ (s : State) (rest : List Input), s.resetHeld = false ∧ off % 8 = 0 ∧ 0 ≤ off ∧ off < 0x80 ∧
        s.inputs = .bus (readOf 0 off) :: rest :=
  fun off h => ⟨rested [.bus (readOf 0 off)], [], rfl, by revert off; decide, by revert off; decide,
    by revert off; decide, rfl⟩

/-- The illegal accesses of L2.2, one below the window and a burst. -/
theorem witness_IllegalAccessGetsBusError :
    ∀ acc ∈ [{ readOf 0 0x40 with transfer := .read 4 }, readOf 0 0x44, readOf 0 0x80, writeOf 0 0x10 [1],
        readOf 0 (-8), { readOf 0 0x40 with burst := true }],
      ∃ (s : State) (rest : List Input), s.resetHeld = false ∧ s.inputs = .bus acc :: rest ∧
        ¬ (acc.transfer.bytes = 8 ∧ acc.burst = false ∧ acc.off % 8 = 0 ∧ 0 ≤ acc.off ∧ acc.off < 0x80) :=
  fun acc h => ⟨rested [.bus acc], [], rfl, rfl, by revert acc; decide⟩

theorem witness_ReservedOffsetsInert : ∃ (s u : State) (lanes : List Byte) (rest : List Input),
    s.resetHeld = false ∧ u.resetHeld = false ∧ lanes.length = 8 ∧
    s.inputs = .bus (readOf 0 0x48) :: rest ∧ u.inputs = .bus (writeOf 0 0x78 lanes) :: rest ∧
    (0x48 : Int) ∈ [(0x48 : Int), 0x50, 0x58, 0x60, 0x68, 0x70, 0x78] ∧
    (0x78 : Int) ∈ [(0x48 : Int), 0x50, 0x58, 0x60, 0x68, 0x70, 0x78] :=
  ⟨rested [.bus (readOf 0 0x48)], asking [.bus (writeOf 0 0x78 (toLanes 5))], toLanes 5, [],
    rfl, rfl, rfl, rfl, rfl, by decide, by decide⟩

theorem witness_StatusBitsAndWrite : ∃ (s : State) (lanes : List Byte) (rest : List Input),
    s.resetHeld = false ∧ lanes.length = 8 ∧ s.inputs = .bus (writeOf 0 0x08 lanes) :: rest :=
  ⟨rested [.bus (writeOf 0 0x08 (toLanes 0x6))], toLanes 0x6, [], rfl, rfl, rfl⟩

theorem witness_IdleWriteStores : ∀ off ∈ [(0x10 : Int), 0x18, 0x20, 0x28, 0x30, 0x38],
    ∃ (s : State) (lanes : List Byte) (rest : List Input), s.resetHeld = false ∧ s.phase = .idle ∧
      lanes.length = 8 ∧ s.inputs = .bus (writeOf 0 off lanes) :: rest :=
  fun off _ => ⟨rested [.bus (writeOf 0 off (toLanes 0x1122334455667788))], toLanes 0x1122334455667788, [],
    rfl, rfl, rfl, rfl⟩

theorem witness_BusyWriteDropped :
    (∀ off ∈ [(0x00 : Int), 0x10, 0x18, 0x20, 0x28, 0x30, 0x38],
      ∃ (s : State) (lanes : List Byte) (rest : List Input), s.resetHeld = false ∧ s.phase = .busy ∧
        lanes.length = 8 ∧ s.inputs = .bus (writeOf 0 off lanes) :: rest) ∧
    (∃ (s : State) (lanes : List Byte) (rest : List Input), s.resetHeld = false ∧ lanes.length = 8 ∧
      s.inputs = .bus (writeOf 0 0x40 lanes) :: rest) :=
  ⟨fun off _ => ⟨asking [.bus (writeOf 0 off (toLanes 13))], toLanes 13, [], rfl, rfl, rfl, rfl⟩,
    asking [.bus (writeOf 0 0x40 (toLanes 13))], toLanes 13, [], rfl, rfl, rfl⟩

theorem witness_ByteLanesLittleEndian :
    (toLanes 0x1122334455667788)[0]? = some 0x88 ∧ (toLanes 0x1122334455667788)[7]? = some 0x11 ∧
    (toLanes 0x1122334455667788).length = 8 := by decide

/-- The lowest and the highest legal word. -/
theorem witness_LegalCommandAccepted :
    ∀ v ∈ [(0x1 : Word), 0x7], ∃ (s : State) (lanes : List Byte) (rest : List Input),
      s.resetHeld = false ∧ s.phase = .idle ∧ lanes.length = 8 ∧ ofLanes lanes = v ∧
      v.toNat / 2 ^ 4 = 0 ∧ 1 ≤ v.toNat % 2 ^ 4 ∧ v.toNat % 2 ^ 4 ≤ 7 ∧
      s.inputs = .bus (writeOf 0 0x00 lanes) :: rest :=
  fun v h => ⟨rested [.bus (writeOf 0 0x00 (toLanes v))], toLanes v, [], rfl, rfl, rfl, by simp,
    by simp at h; rcases h with rfl | rfl <;> decide, by simp at h; rcases h with rfl | rfl <;> decide,
    by simp at h; rcases h with rfl | rfl <;> decide, rfl⟩

/-- OP below and above the legal ones, and RSV with its lowest and its highest bit. -/
theorem witness_IllegalCommandRefused :
    ∀ v ∈ [(0x0 : Word), 0x8, 0x13, 0x8000000000000007], ∃ (s : State) (lanes : List Byte) (rest : List Input),
      s.resetHeld = false ∧ s.phase = .idle ∧ lanes.length = 8 ∧ ofLanes lanes = v ∧
      ¬ (v.toNat / 2 ^ 4 = 0 ∧ 1 ≤ v.toNat % 2 ^ 4 ∧ v.toNat % 2 ^ 4 ≤ 7) ∧
      s.inputs = .bus (writeOf 0 0x00 lanes) :: rest :=
  fun v h => ⟨rested [.bus (writeOf 0 0x00 (toLanes v))], toLanes v, [], rfl, rfl, rfl, by simp,
    by simp at h; rcases h with rfl | rfl | rfl | rfl <;> decide, rfl⟩

theorem witness_MasterMakesNoDifference : ∃ (s : State) (acc : Access), s.resetHeld = false ∧ acc.master ≠ 1 :=
  ⟨asking [], Access.wr .n 13, rfl, by decide⟩

/-- A write that is not to CMD, and a read of CMD. -/
theorem witness_AccessIdempotent :
    (∃ (s t : State) (acc : Access) (rest : List Input), acc.off ≠ 0x00 ∧
      step { s with inputs := .bus acc :: .bus acc :: rest } = .next t) ∧
    (∃ (s t : State) (acc : Access) (rest : List Input), (∃ k, acc.transfer = .read k) ∧
      step { s with inputs := .bus acc :: .bus acc :: rest } = .next t) :=
  ⟨⟨rested [], _, Access.wr .n 13, [], by decide, rfl⟩, rested [], _, readOf 0 0x00, [], ⟨8, rfl⟩, rfl⟩

theorem witness_StepRunsDecodedCommand :
    (∃ (s : State) (bs : List Byte) (i : Instr) (rest : List Input), decode bs = .ok i ∧ s.resetHeld = false ∧
      s.phase = .idle ∧ s.inputs = .bus (writeOf 0 0x00 bs) :: rest) ∧
    (∃ (s : State) (i : Instr), s.inFlight i ∧ s.inputs = []) ∧
    (∃ (s : State) (i : Instr) (rest : List Input), s.inFlight i ∧ s.inputs = .engine :: rest) :=
  ⟨⟨rested [.bus (writeOf 0 0x00 [0x03, 0, 0, 0, 0, 0, 0, 0])], _, .montMul, [], by decide, rfl, rfl, rfl⟩,
    ⟨asking [], .powModOdd, ⟨rfl, rfl⟩, rfl⟩, asking [.engine], .powModOdd, [], ⟨rfl, rfl⟩, rfl⟩

theorem witness_IdleKeepsEverything :
    (rested []).phase = .idle ∧ (rested []).inputs = [] ∧
    (rested [.engine]).phase = .idle ∧ (rested [.engine]).inputs = .engine :: [] := by decide

/-- A command that asks for no inverse, and one that has its answer. -/
theorem witness_CommandInFlightCompletes :
    (∃ s : State, s.inFlight .montMul ∧ s.inputs = [] ∧
      (∀ m, inverseArg .montMul s.a s.n = some m → s.invAnswer.isSome = true)) ∧
    (∃ s : State, s.inFlight .powModOdd ∧ s.inputs = [] ∧
      (∀ m, inverseArg .powModOdd s.a s.n = some m → s.invAnswer.isSome = true)) :=
  ⟨⟨flying .montMul none (rested []), ⟨rfl, rfl⟩, rfl, nofun⟩, answered [], ⟨rfl, rfl⟩, rfl, fun _ _ => rfl⟩

theorem witness_CommandFrame :
    (∃ i : Instr, i ≠ .toMont) ∧
    (∀ m, inverseArg .powModOdd (answered []).a (answered []).n = some m → (answered []).invAnswer.isSome = true) :=
  ⟨⟨.montMul, nofun⟩, fun _ _ => rfl⟩

theorem witness_ResultOnlyAtCompletion : ∃ s t : State, step s = .next t ∧ ¬ s.resetNext ∧ t.res ≠ s.res :=
  ⟨answered [], _, rfl, nofun, by decide⟩

/-- A step of POW_MOD_ODD, and the completion of TO_MONT that fills RMODN. -/
theorem witness_OperandsFrozenWhileBusy :
    (∃ s t : State, s.phase = .busy ∧ ¬ s.resetNext ∧ step s = .next t) ∧
    (∃ s t : State, s.phase = .busy ∧ ¬ s.resetNext ∧ step s = .next t ∧ t.rmodn ≠ s.rmodn) :=
  ⟨⟨asking [.bus (Access.wr .n 13)], _, rfl, nofun, rfl⟩,
    flying .toMont none (ops 4 0 0 7), _, rfl, nofun, rfl, by decide⟩

/-- ILLEGAL cleared and set, COLLISION cleared and set. -/
theorem witness_StickyErrorBits :
    (∃ s t : State, step s = .next t ∧ s.illegal = true ∧ t.illegal = false) ∧
    (∃ s t : State, step s = .next t ∧ s.collision = true ∧ t.collision = false) ∧
    (∃ s t : State, step s = .next t ∧ s.illegal = false ∧ t.illegal = true) ∧
    (∃ s t : State, step s = .next t ∧ s.collision = false ∧ t.collision = true) :=
  ⟨⟨rested [.bus (Access.wr .status 0x4)], _, rfl, rfl, by decide⟩,
    ⟨{ asking [.bus (Access.wr .status 0x8)] with collision := true }, _, rfl, rfl, by decide⟩,
    ⟨{ State.reset with inputs := [.bus (Access.wr .cmd 0x8)] }, _, rfl, rfl, by decide⟩,
    asking [.bus (Access.wr .cmd 0x7)], _, rfl, rfl, by decide⟩

/-- DONE set, and cleared. -/
theorem witness_DoneBit :
    (∃ s t : State, step s = .next t ∧ s.done = false ∧ t.done = true) ∧
    (∃ s t : State, step s = .next t ∧ s.done = true ∧ t.done = false) :=
  ⟨⟨answered [], _, rfl, rfl, by decide⟩, rested [.bus (Access.wr .cmd 0x3)], _, rfl, rfl, by decide⟩

theorem witness_ResultsStayUntilNextWrite : ∃ (s : State) (evs rest : List Input), s.Inv ∧ s.phase = .idle ∧
    s.resetHeld = false ∧
    (∀ ev ∈ evs, ev = .engine ∨ (∃ k v, ev = .invRsp k v) ∨ ∃ acc k, ev = .bus acc ∧ acc.transfer = .read k) ∧
    s.inputs = evs ++ rest :=
  ⟨rested [.engine, .bus (readOf 0 0x40), .invRsp 0 1], [.engine, .bus (readOf 0 0x40), .invRsp 0 1], [],
    rested_inv _, rfl, rfl, by simp [readOf], rfl⟩

theorem witness_CompletionRacesWrite : ∃ (s : State) (i : Instr) (lanes : List Byte), s.inFlight i ∧
    s.resetHeld = false ∧ lanes.length = 8 ∧
    (∀ q, inverseArg i s.a s.n = some q → s.invAnswer.isSome = true) :=
  ⟨answered [], .powModOdd, toLanes 13, ⟨rfl, rfl⟩, rfl, rfl, fun _ _ => rfl⟩

theorem witness_IdempotentCaching : ∃ s : State, s.n.toNat % 2 = 1 ∧ 3 ≤ s.n.toNat ∧ s.rmodn = 0 :=
  ⟨ops 4 0 0 7, by decide⟩

/-- `R^-1 mod 7 = 4` (L2.4). -/
theorem witness_FromMontCongruence : ∃ (s : State) (rinv : Nat), s.n.toNat % 2 = 1 ∧ 3 ≤ s.n.toNat ∧
    Config.InvContract s.n s.ninv ∧ 2 ^ 64 * rinv % s.n.toNat = 1 :=
  ⟨rested [], 4, by decide⟩

/-- An empty cache, and a filled one. -/
theorem witness_MontgomeryRoundTrip :
    (∃ s : State, s.n.toNat % 2 = 1 ∧ 3 ≤ s.n.toNat ∧ Config.InvContract s.n s.ninv ∧ s.rmodn = 0 ∧
      s.a.toNat < s.n.toNat) ∧
    (∃ s : State, s.n.toNat % 2 = 1 ∧ 3 ≤ s.n.toNat ∧ Config.InvContract s.n s.ninv ∧
      s.rmodn.toNat = 2 ^ 64 % s.n.toNat) :=
  ⟨⟨ctx inv7 0 (ops 3 0 0 7), by decide⟩, rested [], by decide⟩

/-- The first row of L2.5: a carry, with `hi` as the table gives it. -/
theorem witness_CorrectionNeverWraps : ∃ s : State, s.ConsistentContext ∧
    2 ^ 128 ≤ s.a.toNat * s.b.toNat +
      (2 ^ 64 - s.a.toNat * s.b.toNat % 2 ^ 64) % 2 ^ 64 * s.ninv.toNat % 2 ^ 64 * s.n.toNat :=
  ⟨ctx 0x34115b1e5f75270d 0x3b (ops 0xffffffffffffffff 0xffffffffffffffff 0 0xffffffffffffffc5),
    by unfold State.ConsistentContext; decide, by decide⟩

theorem rested_consistent : (rested []).ConsistentContext := by unfold State.ConsistentContext; decide

theorem witness_MontMulCongruence : ∃ (s : State) (rinv : Nat), s.ConsistentContext ∧
    2 ^ 64 * rinv % s.n.toNat = 1 := ⟨rested [], 4, rested_consistent, by decide⟩

theorem witness_MontPowCorrect : ∃ (s : State) (rinv : Nat), s.ConsistentContext ∧ 2 ^ 64 * rinv % s.n.toNat = 1 ∧
    s.e.toNat = 6 := ⟨rested [], 4, rested_consistent, by decide, by decide⟩

/-- The smallest operands of both clauses. -/
theorem witness_LoopIterations :
    (∃ s : State, s.n.toNat % 2 = 1 ∧ 3 ≤ s.n.toNat) ∧ (∃ s : State, 2 ≤ s.n.toNat ∧ 2 ≤ s.a.toNat) :=
  ⟨⟨ops 0 0 0 3, by decide⟩, ops 2 0 0 2, by decide⟩

/-- With an answer, and where none is asked for. -/
theorem witness_PowModOddClosedForm :
    (answered []).InverseAnswered .powModOdd ∧ (ops 1 0 5 7).InverseAnswered .powModOdd ∧
    (answered []).n.toNat % 2 = 1 := by
  refine ⟨fun m h => ⟨inv33, rfl, ?_⟩, nofun, by decide⟩
  have : (33 : Word) = m := Option.some.inj h
  subst this; decide

/-- An even modulus with an answer, `12 = 2^2 * 3`. -/
theorem witness_PowModClosedForm : ∃ (s : State) (k m : Nat), s.InverseAnswered .powMod ∧ 2 ≤ s.n.toNat ∧
    2 ≤ s.a.toNat ∧ s.n.toNat = 2 ^ k * m := by
  refine ⟨flying .powMod (some inv3) (ops 3 0 5 12), 2, 3, fun m h => ⟨inv3, rfl, ?_⟩, by decide, by decide, by decide⟩
  have : (3 : Word) = m := Option.some.inj h
  subst this; decide

/-- POW_MOD at the smallest modulus, with an answer within the contract; POW_MOD_ODD at the smallest odd one, with an answer
outside it. -/
theorem witness_PowModRunsToDone :
    (∃ (s : State) (v : Word) (rest : List Input), s.Inv ∧ s.phase = .idle ∧ s.resetHeld = false ∧ 2 ≤ s.a.toNat ∧
      2 ≤ s.n.toNat ∧ (∀ q, inverseArg .powMod s.a s.n = some q → Config.InvContract q v) ∧
      s.inputs = .bus (writeOf 0 0x00 (encode .powMod)) :: .engine :: .invRsp (s.invReqs + 1) v :: .engine :: rest) ∧
    (∃ (s : State) (v : Word) (rest : List Input), s.Inv ∧ s.phase = .idle ∧ s.resetHeld = false ∧ 2 ≤ s.a.toNat ∧
      3 ≤ s.n.toNat ∧ s.n.toNat % 2 = 1 ∧
      s.inputs =
        .bus (writeOf 0 0x00 (encode .powModOdd)) :: .engine :: .invRsp (s.invReqs + 1) v :: .engine :: rest) := by
  refine ⟨⟨{ rested [.bus (writeOf 0 0x00 (encode .powMod)), .engine, .invRsp 1 1, .engine] with n := 2 }, 1, [],
    ⟨nofun, nofun, nofun, reset_work_ok⟩, rfl, rfl, by decide, by decide, fun q h => ?_, rfl⟩,
    { rested [.bus (writeOf 0 0x00 (encode .powModOdd)), .engine, .invRsp 1 5, .engine] with n := 3 }, 5, [],
    ⟨nofun, nofun, nofun, reset_work_ok⟩, rfl, rfl, by decide, by decide, by decide, rfl⟩
  have : (1 : Word) = q := Option.some.inj h
  subst this; decide

/-- Each line of the table of R183: not yet asked, and asked; and no request at all. -/
theorem witness_InverseRequestTable :
    (∃ s : State, s.n.toNat % 2 = 1 ∧ 3 ≤ s.n.toNat ∧ 2 ≤ s.a.toNat ∧ s.invAnswer = none ∧ s.invPending = false) ∧
    (∃ s : State, s.n.toNat % 2 = 1 ∧ 3 ≤ s.n.toNat ∧ 2 ≤ s.a.toNat ∧ s.invAnswer = none ∧ s.invPending = true) ∧
    (∃ s : State, s.n.toNat % 2 = 0 ∧ 2 ≤ s.n.toNat ∧ 2 ≤ s.a.toNat ∧ s.invAnswer = none ∧ s.invPending = false) ∧
    (∃ s : State, s.n.toNat % 2 = 0 ∧ 2 ≤ s.n.toNat ∧ 2 ≤ s.a.toNat ∧ s.invAnswer = none ∧ s.invPending = true) ∧
    (∃ s : State, s.invAnswer.isSome = true) ∧ (∃ s : State, s.invAnswer = none ∧ s.a.toNat < 2) :=
  ⟨⟨ops 2 0 0 3, by decide⟩, ⟨asking [], by decide⟩, ⟨ops 2 0 0 2, by decide⟩,
    ⟨{ ops 2 0 0 2 with invPending := true }, by decide⟩, ⟨answered [], rfl⟩, ops 1 0 0 2, by decide⟩

theorem witness_HostContextUntouched : ∃ i : Instr, i = .powModOdd ∨ i = .powMod := ⟨.powMod, .inr rfl⟩

theorem witness_WorkingRegisterFrame :
    (∃ i : Instr, i = .toMont ∨ i = .fromMont ∨ i = .montMul) ∧ (∃ i : Instr, i = .montPow ∨ i = .genPow) ∧
    (∃ (i : Instr) (s : State), i = .powModOdd ∨ (i = .powMod ∧ s.n.toNat % 2 = 1)) :=
  ⟨⟨.toMont, .inl rfl⟩, ⟨.genPow, .inr rfl⟩, .powMod, answered [], .inr (by decide)⟩

theorem witness_InternalContext : ∃ (s : State) (i : Instr) (inv : Word), (i = .powModOdd ∨ i = .powMod) ∧
    s.invAnswer = some inv ∧ s.n.toNat % 2 = 1 ∧ 3 ≤ s.n.toNat ∧ 2 ≤ s.a.toNat :=
  ⟨answered [], .powModOdd, inv33, .inl rfl, rfl, by decide⟩

/-- `12 = 2^2 * 3` (L2.9). -/
theorem witness_EvenPathInternals : ∃ s : State, s.InverseAnswered .powMod ∧ s.n.toNat % 2 = 0 ∧
    2 ≤ s.n.toNat ∧ 2 ≤ s.a.toNat := by
  refine ⟨flying .powMod (some inv3) (ops 3 0 5 12), fun m h => ⟨inv3, rfl, ?_⟩, by decide⟩
  have : (3 : Word) = m := Option.some.inj h
  subst this; decide

theorem witness_RequestsAreOddAndSingle :
    (∃ s : State, s.Inv ∧ s.invPending = true) ∧ (∃ s t : State, step s = .next t ∧ t.invReqs ≠ s.invReqs) :=
  ⟨⟨asking [], asking_inv _, rfl⟩, flying .powMod none (ops 2 0 0 4), _, rfl, by decide⟩

/-- A stale answer, a dropped write, the engine's turn and a release of the reset input, with no answer. -/
theorem witness_UnansweredCommandHangs : ∃ (s : State) (evs rest : List Input), s.Inv ∧ s.invPending = true ∧
    (∀ ev ∈ evs, ev ≠ .resetAssert ∧ ∀ v, ev ≠ .invRsp s.invReqs v) ∧ s.inputs = evs ++ rest :=
  ⟨asking [.invRsp 0 1, .bus (Access.wr .n 13), .engine, .resetRelease],
    [.invRsp 0 1, .bus (Access.wr .n 13), .engine, .resetRelease], [], asking_inv _, rfl, by simp [asking], rfl⟩

/-- S1 at its upper bound, S2 at its lowest even modulus, S3 at its upper bound. -/
theorem witness_SentinelResults :
    (∃ s : State, s.n.toNat = 0) ∧ (∃ s : State, s.n.toNat = 1) ∧
    (∃ s : State, s.n.toNat % 2 = 0 ∧ 2 ≤ s.n.toNat) ∧
    (∃ s : State, s.a.toNat < 2 ∧ 2 ≤ s.n.toNat ∧ s.n.toNat % 2 = 1) :=
  ⟨⟨ops 5 0 5 0, rfl⟩, ⟨ops 5 0 5 1, rfl⟩, ⟨ops 5 0 5 2, by decide⟩, ops 1 0 5 3, by decide⟩

/-- The answer awaited, a response with another number, and a response with none awaited. -/
theorem witness_InverseResponseTaken :
    (∃ (s : State) (req : Nat) (v : Word) (rest : List Input), s.inputs = .invRsp req v :: rest ∧
      s.invPending = true ∧ req = s.invReqs) ∧
    (∃ (s : State) (req : Nat) (v : Word) (rest : List Input), s.inputs = .invRsp req v :: rest ∧
      s.invPending = true ∧ req ≠ s.invReqs) ∧
    (∃ (s : State) (req : Nat) (v : Word) (rest : List Input), s.inputs = .invRsp req v :: rest ∧
      s.invPending = false ∧ req = s.invReqs) :=
  ⟨⟨asking [.invRsp 1 inv33], 1, inv33, [], rfl, rfl, rfl⟩, ⟨asking [.invRsp 0 5], 0, 5, [], rfl, rfl, by decide⟩,
    answered [.invRsp 1 5], 1, 5, [], rfl, rfl, rfl⟩

/-- BUSY set; and cleared by a completion in the order, by one with no event waiting, and by reset. -/
theorem witness_BusyBit :
    (∃ s t : State, step s = .next t ∧ s.status.getLsbD 0 = false ∧ t.status.getLsbD 0 = true) ∧
    (∃ s t : State, step s = .next t ∧ s.status.getLsbD 0 = true ∧ t.status.getLsbD 0 = false ∧ s.inputs ≠ []) ∧
    (∃ s t : State, step s = .next t ∧ s.status.getLsbD 0 = true ∧ t.status.getLsbD 0 = false ∧ s.inputs = []) ∧
    (∃ s t : State, step s = .next t ∧ s.status.getLsbD 0 = true ∧ t.status.getLsbD 0 = false ∧ s.resetNext) :=
  ⟨⟨rested [.bus (Access.wr .cmd 0x3)], _, rfl, by decide, by decide⟩,
    ⟨answered [.engine], _, rfl, by decide, by decide, nofun⟩, ⟨answered [], _, rfl, by decide, by decide, rfl⟩,
    asking [.resetAssert], _, rfl, by decide, by decide, [], rfl⟩

theorem witness_ResetRelease : ∃ (s : State) (rest : List Input), s.resetHeld = true ∧
    s.inputs = .resetRelease :: rest :=
  ⟨{ State.reset with resetHeld := true, inputs := [.resetRelease] }, [], rfl, rfl⟩

end Sys2Proof.Tests
end

section
/-! SUPPORT. Proofs of the statements about the state: what a bus access and a turn of the engine can change
(spec/10_state.md), the machine invariant, and the causes that set and clear each bit of STATUS. -/

namespace Sys2Proof.Machine

open Sys2Proof

/-! ### The bus: everything a bus access can do to the state -/

/-- A register that is not reserved is selected by its own offset only (R30). -/
theorem off_of_regAt {off : Int} {r : Reg} (h : regAt off = r) (hr : r ≠ .reserved) : off = r.off := by
  unfold regAt at h
  split_ifs at h <;> subst h <;> simp_all [Reg.off]

/-- The offsets of the registers whose writes are dropped while BUSY is 1 (R243). -/
theorem off_of_guarded {off : Int} (hg : (regAt off).guarded = true) :
    off ∈ [(0x00 : Int), 0x10, 0x18, 0x20, 0x28, 0x30, 0x38] := by
  have hr : regAt off ≠ .reserved := fun h => by rw [h] at hg; cases hg
  have hoff := off_of_regAt rfl hr
  rw [hoff]
  revert hg
  cases regAt off <;> decide

/-- What an access makes of the state before its response is left, one constructor per rule of the window. -/
inductive AccessEffect (s : State) : Access → State → Prop where
  /-- BusError, a read, or a write to RES or a reserved offset (R62, R61, R33, R63). -/
  | inert (acc : Access) : AccessEffect s acc s
  /-- A write to STATUS (R35). -/
  | status (m : Nat) (lanes : List Byte) (h8 : lanes.length = 8) :
      AccessEffect s (writeOf m 0x08 lanes) (s.writeStatus (ofLanes lanes))
  /-- A write to a guarded register while BUSY is 1 (R243). -/
  | dropped (m : Nat) (off : Int) (lanes : List Byte) (h8 : lanes.length = 8) (hb : s.phase = .busy)
      (hoff : off ∈ [(0x00 : Int), 0x10, 0x18, 0x20, 0x28, 0x30, 0x38]) :
      AccessEffect s (writeOf m off lanes) { s with collision := true }
  /-- A write to an operand register while BUSY is 0 (R31, R32). -/
  | stored (acc : Access) (hi : s.phase = .idle) (a b e n ninv rmodn : Word) :
      AccessEffect s acc { s with a := a, b := b, e := e, n := n, ninv := ninv, rmodn := rmodn }
  /-- A legal word written to CMD while BUSY is 0 (R215). -/
  | accepted (m : Nat) (lanes : List Byte) (i : Instr) (h8 : lanes.length = 8) (hi : s.phase = .idle)
      (hd : decode lanes = .ok i) : AccessEffect s (writeOf m 0x00 lanes) (s.accept (encodeOp i))
  /-- An illegal word written to CMD while BUSY is 0 (R214). -/
  | refused (m : Nat) (lanes : List Byte) (h8 : lanes.length = 8) (hi : s.phase = .idle)
      (hw : wordLegal (ofLanes lanes) = false) :
      AccessEffect s (writeOf m 0x00 lanes) { s with illegal := true }

/-- A write to CMD while BUSY is 0 accepts or refuses its word (R214, R215). -/
theorem State.issue_effect {s : State} {lanes : List Byte} (m : Nat) (h8 : lanes.length = 8) (hi : s.phase = .idle) :
    AccessEffect s (writeOf m 0x00 lanes) (s.issue (ofLanes lanes)) := by
  rcases decodeWord_cases (ofLanes lanes) with ⟨_, i, hd, ho⟩ | ⟨hw, err, hd⟩
  · have e : s.issue (ofLanes lanes) = s.accept (encodeOp i) := by
      rw [← decodeOp_eq_some.mp ho]; simp [State.issue, hd]
    exact e ▸ .accepted m lanes i h8 hi (by simp [decode, h8, hd])
  · have e : s.issue (ofLanes lanes) = { s with illegal := true } := by simp [State.issue, hd]
    exact e ▸ .refused m lanes h8 hi hw

/-- A legal write has one of the effects (R61, R217, R243). -/
theorem State.writeReg_effect (s : State) (m : Nat) (off : Int) {lanes : List Byte} (h8 : lanes.length = 8) :
    AccessEffect s (writeOf m off lanes) (s.writeReg (regAt off) (ofLanes lanes)) := by
  rcases s.writeReg_cases (regAt off) (ofLanes lanes) with ⟨hb, hg, e⟩ | ⟨hn, e⟩ <;> rw [e]
  · exact .dropped m off lanes h8 hb (off_of_guarded hg)
  have hidle : (regAt off).guarded = true → s.phase = .idle := fun hg => by
    cases hp : s.phase
    · rfl
    · exact absurd ⟨hp, hg⟩ hn
  cases hr : regAt off with
  | cmd =>
    rw [off_of_regAt hr nofun]
    exact State.issue_effect m h8 (hidle (by rw [hr]; rfl))
  | status =>
    rw [off_of_regAt hr nofun]
    exact .status m lanes h8
  | a => exact .stored _ (hidle (by rw [hr]; rfl)) (ofLanes lanes) s.b s.e s.n s.ninv s.rmodn
  | b => exact .stored _ (hidle (by rw [hr]; rfl)) s.a (ofLanes lanes) s.e s.n s.ninv s.rmodn
  | e => exact .stored _ (hidle (by rw [hr]; rfl)) s.a s.b (ofLanes lanes) s.n s.ninv s.rmodn
  | n => exact .stored _ (hidle (by rw [hr]; rfl)) s.a s.b s.e (ofLanes lanes) s.ninv s.rmodn
  | ninv => exact .stored _ (hidle (by rw [hr]; rfl)) s.a s.b s.e s.n (ofLanes lanes) s.rmodn
  | rmodn => exact .stored _ (hidle (by rw [hr]; rfl)) s.a s.b s.e s.n s.ninv (ofLanes lanes)
  | res => exact .inert _
  | reserved => exact .inert _

/-- A legal access that moves byte lanes is their write. -/
theorem Access.eq_writeOf {acc : Access} {lanes : List Byte} (hl : acc.legal = true)
    (ht : acc.transfer = .write lanes) : acc = writeOf acc.master acc.off lanes := by
  obtain ⟨-, hburst, -⟩ := acc.legal_iff.mp hl
  cases acc
  simp_all [writeOf]

/-- Every bus access has one of the effects, and then leaves its response (R61, R213). -/
theorem State.access_effect (s : State) (acc : Access) :
    ∃ u ans, AccessEffect s acc u ∧ s.access acc = u.respond acc ans := by
  rcases s.access_cases acc with ⟨_, e⟩ | ⟨_, _, e⟩ | ⟨hl, lanes, ht, h8, e⟩
  · exact ⟨s, _, .inert acc, e⟩
  · exact ⟨s, _, .inert acc, e⟩
  · have hw := s.writeReg_effect acc.master acc.off h8
    rw [← Access.eq_writeOf hl ht] at hw
    exact ⟨_, _, hw, e⟩

/-- A legal write that is the next event is one write of its register (R61). -/
theorem step_write {s : State} {m : Nat} {off : Int} {lanes : List Byte} {rest : List Input}
    (hr : s.resetHeld = false) (h8 : off % 8 = 0) (h0 : 0 ≤ off) (h1 : off < 0x80) (hl : lanes.length = 8)
    (h : s.inputs = .bus (writeOf m off lanes) :: rest) :
    step s = .next ((State.writeReg { s with inputs := rest } (regAt off) (ofLanes lanes)).respond
      (writeOf m off lanes) .normal) := by
  rw [step_bus hr h, State.access_write h8 h0 h1 hl]

/-! ### The engine's turn -/

/-- The rule of a command on the registers it reads. -/
def ruleOf (i : Instr) (s : State) : RuleOutcome :=
  match i with
  | .toMont => toMontRule s.a s.n s.rmodn s.w
  | .fromMont => fromMontRule s.a s.n s.ninv s.rmodn s.w
  | .montMul => montMulRule s.a s.b s.n s.ninv s.rmodn s.w
  | .montPow => montPowRule s.a s.e s.n s.ninv s.rmodn s.w
  | .genPow => genPowRule s.a s.e s.n s.w
  | .powModOdd => powModOddRule s.a s.e s.n s.invAnswer s.w
  | .powMod => powModRule s.a s.e s.n s.invAnswer s.w

/-- The engine's turn on a command is what its rule ends in (R216, R222). -/
theorem exec_eq_conclude (i : Instr) (s : State) : exec i s = .next (s.conclude (ruleOf i s)) := by
  cases i <;> rfl

/-- The inversion of the engine's turn: completion, or the wait for the inverse (R216, R222). -/
theorem exec_next_cases {i : Instr} {s t : State} (h : exec i s = .next t) :
    (∃ v fill w, t = s.complete v fill w ∧ (s.WorkOk → w.iter.toNat ≤ 64 ∧ w.k.toNat ≤ 63) ∧
      (inverseArg i s.a s.n = none ∨ s.invAnswer.isSome = true)) ∨
    (∃ m, t = s.awaitInverse m ∧ inverseArg i s.a s.n = some m ∧ s.invAnswer = none) := by
  rcases exec_cases i s with ⟨v, fill, w, e, _, hw, ha⟩ | ⟨m, e, _, hm, ha⟩ <;> rw [e] at h <;> cases h
  · exact .inl ⟨v, fill, w, rfl, hw, ha⟩
  · exact .inr ⟨m, rfl, hm, ha⟩

/-- The wait for the inverse writes the request port only (R222). -/
theorem State.awaitInverse_frame (s : State) (m : Word) :
    ∃ g k, s.awaitInverse m = { s with invPending := true, invArg := g, invReqs := k } := by
  rcases s.awaitInverse_cases m with ⟨hp, e⟩ | ⟨_, e⟩
  · exact ⟨s.invArg, s.invReqs, by rw [e, ← hp]⟩
  · exact ⟨_, _, e⟩

/-- An inverse response writes `w.inv_pending` and the answer held only (R222). -/
theorem State.inverseResponse_frame (s : State) (req : Nat) (v : Word) :
    ∃ p x, s.inverseResponse req v = { s with invPending := p, invAnswer := x } := by
  rcases s.inverseResponse_cases req v with ⟨_, _, e⟩ | ⟨_, e⟩
  · exact ⟨_, _, e⟩
  · exact ⟨s.invPending, s.invAnswer, e⟩

/-! ### The machine invariant -/

/-- An idle machine with nothing on the inverse port, and its counters in their bounds, meets the invariant. -/
theorem State.Inv.of_idle {s : State} (hi : s.phase = .idle) (hp : s.invPending = false) (ha : s.invAnswer = none)
    (hw : s.WorkOk) : s.Inv where
  busyOk hb := by rw [hi] at hb; cases hb
  portOk h := by rw [hp] at h; cases h
  answerOk h := by rw [ha] at h; cases h
  workOk := hw

/-- An idle machine waits for no answer (R183, R222). -/
theorem State.Inv.invPending_of_idle {s : State} (h : s.Inv) (hi : s.phase = .idle) : s.invPending = false := by
  cases hp : s.invPending
  · rfl
  · have hb := (h.portOk hp).1.1
    rw [hi] at hb; cases hb

/-- An idle machine holds no answer (R183, R222). -/
theorem State.Inv.invAnswer_of_idle {s : State} (h : s.Inv) (hi : s.phase = .idle) : s.invAnswer = none := by
  cases ha : s.invAnswer
  · rfl
  · have hb := (h.answerOk (by rw [ha]; rfl)).1
    rw [hi] at hb; cases hb

/-- The invariant does not speak of the events to come. -/
theorem State.Inv.setInputs {s : State} (h : s.Inv) (rest : List Input) : State.Inv { s with inputs := rest } :=
  ⟨h.busyOk, h.portOk, h.answerOk, h.workOk⟩

/-- The zeros of the hidden registers after reset are in their bounds (log entry 5). -/
theorem State.reset_workOk : State.reset.WorkOk := by unfold State.WorkOk; decide

/-- The assertion of reset establishes the invariant (R240). -/
theorem State.assertReset_inv (s : State) : s.assertReset.Inv := .of_idle rfl rfl rfl State.reset_workOk

/-- The release of reset keeps the invariant (R240). -/
theorem State.Inv.releaseReset {s : State} (h : s.Inv) : s.releaseReset.Inv where
  busyOk hb := by
    obtain ⟨ho, hd, _⟩ := h.busyOk hb
    exact ⟨ho, hd, rfl⟩
  portOk := h.portOk
  answerOk := h.answerOk
  workOk := h.workOk

/-- An inverse response keeps the invariant: the answer taken is to what the command in flight asks for (R222). -/
theorem State.Inv.inverseResponse {s : State} (h : s.Inv) (req : Nat) (v : Word) : (s.inverseResponse req v).Inv := by
  rcases s.inverseResponse_cases req v with ⟨hp, _, e⟩ | ⟨_, e⟩ <;> rw [e]
  · exact ⟨h.busyOk, nofun, fun _ => (h.portOk hp).1, h.workOk⟩
  · exact h

/-- Every effect of a bus access keeps the invariant (R37, R38, R215, R243). -/
theorem AccessEffect.inv {s u : State} {acc : Access} (he : AccessEffect s acc u) (h : s.Inv)
    (hr : s.resetHeld = false) : u.Inv := by
  cases he with
  | inert => exact h
  | status m lanes =>
    refine ⟨fun hb => ?_, h.portOk, h.answerOk, h.workOk⟩
    obtain ⟨ho, hd, hh⟩ := h.busyOk hb
    exact ⟨ho, by simp [hd], hh⟩
  | dropped => exact ⟨h.busyOk, h.portOk, h.answerOk, h.workOk⟩
  | stored _ hi => exact .of_idle hi (h.invPending_of_idle hi) (h.invAnswer_of_idle hi) h.workOk
  | accepted m lanes i _ hi =>
    have hp := h.invPending_of_idle hi
    have ha := h.invAnswer_of_idle hi
    exact ⟨fun _ => ⟨by simp [decodeOp_encodeOp], rfl, hr⟩, fun h' => by simp [hp] at h',
      fun h' => by simp [ha] at h', h.workOk⟩
  | refused => exact ⟨h.busyOk, h.portOk, h.answerOk, h.workOk⟩

/-- A bus access keeps the invariant: the response is no part of it. -/
theorem State.Inv.access {s : State} (h : s.Inv) (hr : s.resetHeld = false) (acc : Access) : (s.access acc).Inv := by
  obtain ⟨u, ans, he, e⟩ := s.access_effect acc
  have hu := he.inv h hr
  rw [e]
  exact ⟨hu.busyOk, hu.portOk, hu.answerOk, hu.workOk⟩

/-- The engine's wait keeps the invariant: a new request is for what the command in flight asks for (R183, R222). -/
theorem State.Inv.awaitInverse {s : State} {i : Instr} {m : Word} (h : s.Inv) (hf : s.inFlight i)
    (hm : inverseArg i s.a s.n = some m) (ha : s.invAnswer = none) : (s.awaitInverse m).Inv := by
  obtain ⟨hb, ho⟩ := hf
  rcases s.awaitInverse_cases m with ⟨_, e⟩ | ⟨_, e⟩ <;> rw [e]
  · exact h
  · have hasks : State.AsksForPort { s with invPending := true, invArg := m, invReqs := s.invReqs + 1 } :=
      ⟨hb, by simp [ho, hm]⟩
    exact ⟨h.busyOk, fun _ => ⟨hasks, ha⟩, fun _ => hasks, h.workOk⟩

/-- The engine's turn on the command in flight keeps the invariant (R216, R222). -/
theorem State.Inv.exec {s t : State} {i : Instr} (h : s.Inv) (hf : s.inFlight i) (e : exec i s = .next t) : t.Inv := by
  rcases exec_next_cases e with ⟨v, fill, w, rfl, hw, _⟩ | ⟨m, rfl, hm, ha⟩
  · exact .of_idle rfl rfl rfl (hw h.workOk)
  · exact h.awaitInverse hf hm ha

/-- Settles O4: each kind of step keeps the invariant, by the lemma of its operation. -/
theorem stepKeepsInvariant : Obligations.StepKeepsInvariant := by
  intro s t h hst
  rcases step_cases hst with ⟨rest, _, rfl⟩ | ⟨rest, _, rfl⟩ | ⟨req, v, rest, _, rfl⟩ | ⟨acc, rest, _, hr, rfl⟩ |
    ⟨rest, _, ⟨_, rfl⟩ | ⟨i, hf, e⟩⟩
  · exact State.assertReset_inv _
  · exact (h.setInputs rest).releaseReset
  · exact (h.setInputs rest).inverseResponse req v
  · exact (h.setInputs rest).access hr acc
  · exact h.setInputs rest
  · exact (h.setInputs rest).exec hf e

/-- Settles O3: after reset the machine is idle, with nothing on the inverse port. -/
theorem resetMeetsInvariant : Obligations.ResetMeetsInvariant :=
  State.Inv.of_idle rfl rfl rfl State.reset_workOk

/-! ### The frames of the commands -/

/-- Settles O27: the turn is a completion or the wait, and each writes the named fields only. -/
theorem commandFrame : Obligations.CommandFrame := by
  intro i s
  rcases exec_cases i s with ⟨v, fill, w, e, hfill, _, _⟩ | ⟨m, e, _, hm, ha⟩
  · exact ⟨_, e, rfl, fun hi => by simp [hfill hi], fun _ => rfl⟩
  · obtain ⟨g, k, hframe⟩ := s.awaitInverse_frame m
    rw [hframe] at e
    refine ⟨_, e, rfl, fun _ => rfl, fun hans => ?_⟩
    have hsome := hans m hm
    rw [ha] at hsome; cases hsome

/-- The working registers after a rule that started from `w`: the wait leaves them. -/
def RuleOutcome.work (w : Work) : RuleOutcome → Work
  | .value _ _ w' => w'
  | .needsInverse _ => w

/-- The engine's turn leaves the working registers of the rule's outcome (R216). -/
theorem State.conclude_w (s : State) (o : RuleOutcome) : (s.conclude o).w = o.work s.w := by
  cases o with
  | value v fill w => rfl
  | needsInverse m =>
    obtain ⟨g, k, e⟩ := s.awaitInverse_frame m
    simp only [State.conclude, e, RuleOutcome.work]

/-- TO_MONT writes no working register (R100). -/
theorem toMontRule_work (a n c : Word) (w : Work) : (toMontRule a n c w).work w = w := by
  unfold toMontRule; split_ifs <;> rfl

/-- FROM_MONT writes no working register (R104). -/
theorem fromMontRule_work (ar n ninv rmodn : Word) (w : Work) : (fromMontRule ar n ninv rmodn w).work w = w := by
  unfold fromMontRule; split_ifs <;> rfl

/-- MONT_MUL writes no working register (R121). -/
theorem montMulRule_work (ar br n ninv rmodn : Word) (w : Work) : (montMulRule ar br n ninv rmodn w).work w = w := by
  unfold montMulRule; split_ifs <;> rfl

/-- MONT_POW_CORE writes the registers of the loop only (R140). -/
theorem montPowCore_frame (ar e n ninv rmodn : Word) (w : Work) :
    ∃ r q f k, (montPowCore ar e n ninv rmodn w).2 = { w with res := r, sq := q, f := f, iter := k } :=
  ⟨_, _, _, _, powLoop_frame _ _ _⟩

/-- POW_CORE writes the registers of the loop only (R160). -/
theorem powCore_frame (x e n : Word) (w : Work) :
    ∃ r q f k, (powCore x e n w).2 = { w with res := r, sq := q, f := f, iter := k } :=
  ⟨_, _, _, _, powLoop_frame _ _ _⟩

/-- ODD_CORE writes the registers of the loop and the internal context only (R180). -/
theorem oddCore_frame (a e n inv : Word) (w : Work) :
    ∃ r q f k c x, (oddCore a e n inv w).2 =
      { w with res := r, sq := q, f := f, iter := k, ctxR := c, ctxInv := x } := by
  obtain ⟨r, q, f, k, h⟩ :=
    montPowCore_frame (mulMod a (rModN n) n) e n inv (rModN n) { w with ctxR := rModN n, ctxInv := inv }
  exact ⟨r, q, f, k, rModN n, inv, h⟩

/-- MONT_POW writes the registers of the loop only (R142). -/
theorem montPowRule_work (ar e n ninv rmodn : Word) (w : Work) :
    ∃ r q f k, (montPowRule ar e n ninv rmodn w).work w = { w with res := r, sq := q, f := f, iter := k } := by
  unfold montPowRule
  split_ifs
  · exact ⟨w.res, w.sq, w.f, w.iter, rfl⟩
  · exact montPowCore_frame ar e n ninv rmodn w

/-- GEN_POW writes the registers of the loop only (R162). -/
theorem genPowRule_work (a e n : Word) (w : Work) :
    ∃ r q f k, (genPowRule a e n w).work w = { w with res := r, sq := q, f := f, iter := k } := by
  unfold genPowRule
  split_ifs
  · exact ⟨w.res, w.sq, w.f, w.iter, rfl⟩
  · exact ⟨w.res, w.sq, w.f, w.iter, rfl⟩
  · exact powCore_frame a e n w

/-- POW_MOD_ODD writes the registers of the loop and the internal context only (R182, R183). -/
theorem powModOddRule_work (a e n : Word) (answer : Option Word) (w : Work) :
    ∃ r q f k c x, (powModOddRule a e n answer w).work w =
      { w with res := r, sq := q, f := f, iter := k, ctxR := c, ctxInv := x } := by
  have hnone : ∃ r q f k c x, w = { w with res := r, sq := q, f := f, iter := k, ctxR := c, ctxInv := x } :=
    ⟨w.res, w.sq, w.f, w.iter, w.ctxR, w.ctxInv, rfl⟩
  unfold powModOddRule
  split_ifs
  · exact hnone
  · exact hnone
  · exact hnone
  · cases answer with
    | none => exact hnone
    | some inv => exact oddCore_frame a e n inv w

/-- On an odd modulus the rule of POW_MOD is the rule of POW_MOD_ODD (R184). -/
theorem powModRule_of_odd {n : Word} (hn : n.toNat % 2 = 1) (a e : Word) (answer : Option Word) (w : Work) :
    powModRule a e n answer w = powModOddRule a e n answer w := by
  have hodd : ¬ EvenModulus n := by unfold EvenModulus; omega
  simp only [powModRule, powModOddRule, hodd, if_false]

/-- Settles O52: the working registers after the turn are those of the command's rule. -/
theorem workingRegisterFrame : Obligations.WorkingRegisterFrame := by
  intro i s
  refine ⟨_, exec_eq_conclude i s, ?_, ?_, ?_⟩ <;> rw [State.conclude_w]
  · rintro (rfl | rfl | rfl)
    · exact toMontRule_work s.a s.n s.rmodn s.w
    · exact fromMontRule_work s.a s.n s.ninv s.rmodn s.w
    · exact montMulRule_work s.a s.b s.n s.ninv s.rmodn s.w
  · intro hi
    have hloop : ∃ r q f k, (ruleOf i s).work s.w = { s.w with res := r, sq := q, f := f, iter := k } := by
      rcases hi with rfl | rfl
      · exact montPowRule_work s.a s.e s.n s.ninv s.rmodn s.w
      · exact genPowRule_work s.a s.e s.n s.w
    obtain ⟨r, q, f, k, e⟩ := hloop
    rw [e]
  · intro hi
    have hrule : ruleOf i s = powModOddRule s.a s.e s.n s.invAnswer s.w := by
      rcases hi with rfl | ⟨rfl, hn⟩
      · rfl
      · exact powModRule_of_odd hn s.a s.e s.invAnswer s.w
    obtain ⟨r, q, f, k, c, x, e⟩ := powModOddRule_work s.a s.e s.n s.invAnswer s.w
    rw [hrule, e]

/-! ### What sets and clears the bits of STATUS -/

/-- The engine's turn leaves the error bits; it leaves RES, DONE and BUSY too, or it is a completion (R216, R222). -/
theorem exec_visible {i : Instr} {s t : State} (hb : s.phase = .busy) (h : exec i s = .next t) :
    t.illegal = s.illegal ∧ t.collision = s.collision ∧
      ((t.res = s.res ∧ t.done = s.done ∧ t.phase = s.phase) ∨
        (s.phase = .busy ∧ t.phase = .idle ∧ t.done = true)) := by
  rcases exec_next_cases h with ⟨v, fill, w, rfl, _⟩ | ⟨m, rfl, _⟩
  · exact ⟨rfl, rfl, .inr ⟨hb, rfl, rfl⟩⟩
  · obtain ⟨g, k, e⟩ := s.awaitInverse_frame m
    rw [e]
    exact ⟨rfl, rfl, .inl ⟨rfl, rfl, rfl⟩⟩

/-- Everything a step can do to RES and the bits of STATUS: reset, a bus access, a completion, or nothing. -/
theorem step_visible_cases {s t : State} (h : step s = .next t) :
    s.resetNext ∨
    (∃ acc rest u ans, s.inputs = .bus acc :: rest ∧ AccessEffect { s with inputs := rest } acc u ∧
      t = u.respond acc ans) ∨
    (t.illegal = s.illegal ∧ t.collision = s.collision ∧
      ((t.res = s.res ∧ t.done = s.done ∧ t.phase = s.phase) ∨
        (s.phase = .busy ∧ t.phase = .idle ∧ t.done = true))) := by
  rcases step_cases h with ⟨rest, hin, _⟩ | ⟨rest, _, rfl⟩ | ⟨req, v, rest, _, rfl⟩ | ⟨acc, rest, hin, _, rfl⟩ |
    ⟨rest, _, ⟨_, rfl⟩ | ⟨i, ⟨hb, _⟩, e⟩⟩
  · exact .inl ⟨rest, hin⟩
  · exact .inr (.inr ⟨rfl, rfl, .inl ⟨rfl, rfl, rfl⟩⟩)
  · obtain ⟨p, x, e⟩ := State.inverseResponse_frame { s with inputs := rest } req v
    rw [e]
    exact .inr (.inr ⟨rfl, rfl, .inl ⟨rfl, rfl, rfl⟩⟩)
  · obtain ⟨u, ans, he, e⟩ := State.access_effect { s with inputs := rest } acc
    exact .inr (.inl ⟨acc, rest, u, ans, hin, he, e⟩)
  · exact .inr (.inr ⟨rfl, rfl, .inl ⟨rfl, rfl, rfl⟩⟩)
  · exact .inr (.inr (exec_visible (s := { s with inputs := rest }) hb e))

/-- No bus access changes RES (R33). -/
theorem AccessEffect.res_eq {s u : State} {acc : Access} (he : AccessEffect s acc u) : u.res = s.res := by
  cases he <;> rfl

/-- Settles O28: of the steps other than reset, only a completion writes RES. -/
theorem resultOnlyAtCompletion : Obligations.ResultOnlyAtCompletion := by
  intro s t h hreset hres
  rcases step_visible_cases h with hr | ⟨acc, rest, u, ans, _, he, rfl⟩ | ⟨_, _, ⟨hsame, _⟩ | hcomplete⟩
  · exact absurd hr hreset
  · exact absurd he.res_eq hres
  · exact absurd hsame hres
  · exact hcomplete

/-- A bit that a STATUS write clears was written with 1 (R35). -/
theorem eq_true_of_and_not_eq_false {b v : Bool} (hb : b = true) (h : (b && !v) = false) : v = true := by
  simpa [hb] using h

/-- The word of every command is legal (R81, R82). -/
theorem wordLegal_encodeWord (i : Instr) : wordLegal (encodeWord i) = true := by
  cases i <;> decide

/-- Eight lanes of an illegal word encode no command (R82). -/
theorem ne_encode_of_illegal {lanes : List Byte} (hw : wordLegal (ofLanes lanes) = false) (i : Instr) :
    lanes ≠ encode i := by
  rintro rfl
  rw [encode, ofLanes_toLanes, wordLegal_encodeWord] at hw
  cases hw

/-- Settles O30: only reset and bus accesses write the error bits, and the effects of an access say how. -/
theorem stickyErrorBits : Obligations.StickyErrorBits := by
  intro s t h
  rcases step_visible_cases h with hr | ⟨acc, rest, u, ans, hin, he, rfl⟩ | ⟨hi, hc, _⟩
  · obtain ⟨rest, hin⟩ := hr
    rw [step_cons hin] at h
    cases h
    exact ⟨fun _ _ => .inl ⟨rest, hin⟩, fun _ _ => .inl ⟨rest, hin⟩, nofun, nofun⟩
  · simp only [State.respond_illegal, State.respond_collision]
    cases he with
    | status m lanes h8 =>
      refine ⟨fun h1 h2 => .inr ⟨m, lanes, rest, hin, h8, eq_true_of_and_not_eq_false h1 h2⟩,
        fun h1 h2 => .inr ⟨m, lanes, rest, hin, h8, eq_true_of_and_not_eq_false h1 h2⟩, ?_, ?_⟩ <;> simp_all
    | dropped m off lanes h8 hb hoff =>
      exact ⟨by simp_all, nofun, by simp_all, fun _ _ => ⟨hb, m, off, lanes, rest, hin, h8, hoff⟩⟩
    | refused m lanes h8 hidle hw =>
      exact ⟨nofun, by simp_all, fun _ _ => ⟨hidle, m, lanes, rest, hin, h8, ne_encode_of_illegal hw⟩, by simp_all⟩
    | inert => simp_all
    | stored => simp_all
    | accepted => simp_all
  · simp_all

/-- Settles O31: beside reset and a completion, only a STATUS write and an acceptance write DONE, and they clear it. -/
theorem doneBit : Obligations.DoneBit := by
  intro s t h
  rcases step_visible_cases h with hr | ⟨acc, rest, u, ans, hin, he, rfl⟩ | ⟨_, _, ⟨_, hd, _⟩ | ⟨hb, hi, hd⟩⟩
  · refine ⟨fun _ h2 => ?_, fun _ _ => .inl hr⟩
    obtain ⟨rest, hin⟩ := hr
    rw [step_cons hin] at h
    cases h
    cases h2
  · simp only [State.respond_done, State.respond_phase]
    cases he with
    | status m lanes h8 =>
      exact ⟨by simp_all, fun h1 h2 => .inr (.inl ⟨m, lanes, rest, hin, h8, eq_true_of_and_not_eq_false h1 h2⟩)⟩
    | accepted m lanes i h8 hidle => exact ⟨nofun, fun _ _ => .inr (.inr ⟨hidle, rfl⟩)⟩
    | inert => simp_all
    | dropped => simp_all
    | stored => simp_all
    | refused => simp_all
  · simp_all
  · exact ⟨fun _ _ => ⟨hb, hi⟩, by simp_all⟩

/-- A bit at its place is that bit of the word, and every other bit is 0. -/
theorem bitAt_getLsbD {i : Nat} (hi : i < 64) (b : Bool) (j : Nat) : (bitAt i b).getLsbD j = (b && decide (j = i)) := by
  cases b
  · simp [bitAt]
  · simp only [bitAt, if_true, BitVec.getLsbD_ofNat, Nat.testBit_two_pow, Bool.true_and]
    by_cases hj : j = i
    · simp [hj, hi]
    · simp [hj, Ne.symm hj]

/-- The bits of STATUS (R35). -/
theorem State.status_getLsbD (s : State) (j : Nat) : s.status.getLsbD j =
    (if j = 0 then decide (s.phase = .busy) else if j = 1 then s.done else if j = 2 then s.illegal
      else if j = 3 then s.collision else false) := by
  simp only [State.status, BitVec.getLsbD_or, bitAt_getLsbD (show 0 < 64 by norm_num),
    bitAt_getLsbD (show 1 < 64 by norm_num), bitAt_getLsbD (show 2 < 64 by norm_num),
    bitAt_getLsbD (show 3 < 64 by norm_num), State.busy_eq]
  split_ifs <;> simp_all

/-- Bit 0 of STATUS is BUSY (R35, R37). -/
theorem State.status_bit0 (s : State) : s.status.getLsbD 0 = decide (s.phase = .busy) := s.status_getLsbD 0

/-- Settles O59: only an acceptance sets BUSY, and only reset and the completion of the command in flight clear it. -/
theorem busyBit : Obligations.BusyBit := by
  intro s t h
  simp only [State.status_bit0, decide_eq_true_eq, decide_eq_false_iff_not]
  rcases step_cases h with ⟨rest, hin, rfl⟩ | ⟨rest, _, rfl⟩ | ⟨req, v, rest, _, rfl⟩ | ⟨acc, rest, hin, hr, rfl⟩ |
    ⟨rest, hin, ⟨_, rfl⟩ | ⟨i, hf, e⟩⟩
  · exact ⟨nofun, fun _ _ => .inl ⟨rest, hin⟩⟩
  · exact ⟨fun h1 h2 => absurd h2 h1, absurd⟩
  · obtain ⟨p, x, e⟩ := State.inverseResponse_frame { s with inputs := rest } req v
    rw [e]
    exact ⟨fun h1 h2 => absurd h2 h1, absurd⟩
  · rcases State.access_phase { s with inputs := rest } acc with hp | ⟨hidle, _, lanes, i, hacc, h8, hd, ho, hdone⟩
    · rw [hp]
      exact ⟨fun h1 h2 => absurd h2 h1, absurd⟩
    · exact ⟨fun _ _ => ⟨hr, acc.master, lanes, rest, i, hacc ▸ hin, h8, hd, ho, hdone⟩,
        fun h1 _ => by rw [hidle] at h1; cases h1⟩
  · exact ⟨fun h1 h2 => absurd h2 h1, absurd⟩
  · refine ⟨fun h1 _ => absurd hf.1 h1, fun _ h2 => ?_⟩
    rcases exec_next_cases e with ⟨v, fill, w, ht, _, ha⟩ | ⟨m, ht, _⟩
    · refine .inr ⟨by rw [ht]; rfl, i, rest, hin, hf, e, fun q hq => ?_⟩
      exact ha.resolve_left (fun hnone => by rw [hq] at hnone; cases hnone)
    · obtain ⟨g, k, hframe⟩ := State.awaitInverse_frame { s with inputs := rest } m
      rw [ht, hframe] at h2
      exact absurd hf.1 h2

/-! ### Reset, STATUS and the operand registers -/

/-- Settles O1: each register of the window in the reset state. -/
theorem resetState : Obligations.ResetState := by
  refine ⟨fun r => ?_, rfl, rfl, rfl⟩
  cases r <;> rfl

/-- Clearing by a written 1, as a choice (R35). -/
theorem and_not_eq_ite (b v : Bool) : (b && !v) = if v then false else b := by
  cases v <;> simp

/-- Settles O13: the bits by `State.status_getLsbD`, the write by the rule of STATUS, which does not depend on BUSY. -/
theorem statusBitsAndWrite : Obligations.StatusBitsAndWrite := by
  refine ⟨rfl, State.status_getLsbD, fun s m lanes rest hr h8 hin => ?_⟩
  rw [step_write hr (by norm_num) (by norm_num) (by norm_num) h8 hin,
    State.writeReg_unguarded (show (regAt 0x08).guarded = false from rfl)]
  simp only [← and_not_eq_ite]
  rfl

/-- Settles O14: an idle machine performs the write, and each offset selects one operand register. -/
theorem idleWriteStores : Obligations.IdleWriteStores := by
  intro s m off lanes rest hr hi h8 hoff hin
  simp only [List.mem_cons, List.not_mem_nil, or_false] at hoff
  rw [step_write hr (by omega) (by omega) (by omega) h8 hin, State.writeReg_idle (by exact hi)]
  rcases hoff with rfl | rfl | rfl | rfl | rfl | rfl <;> rfl

end Sys2Proof.Machine
end

section
/-! SUPPORT. Proofs of the statements about the register window (spec/20_memory.md): byte lanes, what each access
answers, the frame of the response port, idempotence, and the results that stay after a completion. -/

namespace Sys2Proof.Machine

open Sys2Proof

/-! ### Byte lanes -/

/-- Lane `i` of a value is its bits `8i+7` to `8i` (R64). -/
theorem toLanes_getElem? (v : Word) {i : Nat} (hi : i < 8) : (toLanes v)[i]? = some (v.extractLsb' (8 * i) 8) := by
  rw [toLanes, lanesOfNat_getElem? 8 _ i hi, BitVec.extractLsb', Nat.shiftRight_eq_div_pow]

/-- Settles O16: the lanes by their values, and both round trips. -/
theorem byteLanesLittleEndian : Obligations.ByteLanesLittleEndian :=
  ⟨fun v _ hi => toLanes_getElem? v hi, fun v => ⟨toLanes_length v, ofLanes_toLanes v⟩, fun _ h => toLanes_ofLanes h⟩

/-! ### What each kind of access does -/

/-- An illegal access gets BusError and does nothing else (R62, R213). -/
theorem State.access_illegal (s : State) {acc : Access} (h : acc.legal = false) :
    s.access acc = s.respond acc (.busError (Config.busAddr acc.off)) := by
  simp [State.access, h]

/-- A legal read answers the register at its offset (R61). -/
theorem State.access_legal_read (s : State) {acc : Access} {k : Nat} (h : acc.legal = true)
    (ht : acc.transfer = .read k) :
    s.access acc = s.respond acc (.data (toLanes (s.readReg (regAt acc.off)))) := by
  simp [State.access, h, ht]

/-- A legal write is one write of the register at its offset (R61). -/
theorem State.access_legal_write (s : State) {acc : Access} {lanes : List Byte} (h : acc.legal = true)
    (ht : acc.transfer = .write lanes) :
    s.access acc = (s.writeReg (regAt acc.off) (ofLanes lanes)).respond acc .normal := by
  simp [State.access, h, ht]

/-- A read, legal or not, changes nothing but the response (R61, R213). -/
theorem State.access_of_read (s : State) {acc : Access} {k : Nat} (ht : acc.transfer = .read k) :
    ∃ ans, s.access acc = s.respond acc ans := by
  cases hl : acc.legal
  · exact ⟨_, s.access_illegal hl⟩
  · exact ⟨_, s.access_legal_read hl ht⟩

/-- No bus access moves the reset input (R240). -/
@[simp] theorem State.access_resetHeld (s : State) (acc : Access) : (s.access acc).resetHeld = s.resetHeld := by
  obtain ⟨u, ans, he, e⟩ := s.access_effect acc
  rw [e, State.respond_resetHeld]
  cases he <;> rfl

/-- The register that an offset selects, as a read returns it (R30, R34, R63). -/
theorem State.readReg_regAt (s : State) (off : Int) : s.readReg (regAt off) =
    (if off = 0x08 then s.status
     else if off = 0x10 then s.a
     else if off = 0x18 then s.b
     else if off = 0x20 then s.e
     else if off = 0x28 then s.n
     else if off = 0x30 then s.ninv
     else if off = 0x38 then s.rmodn
     else if off = 0x40 then s.res
     else 0) := by
  by_cases h0 : off = 0x00
  · subst h0; rfl
  · simp only [regAt, h0, if_false]
    split_ifs <;> rfl

/-- A read looks at neither the last response nor the events to come. -/
theorem State.readReg_border (s : State) (p : Option Reply) (evs : List Input) (r : Reg) :
    State.readReg { s with reply := p, inputs := evs } r = s.readReg r := by
  cases r <;> rfl

/-- A legal read that is the next event answers the register at its offset (R61). -/
theorem step_read {s : State} {m : Nat} {off : Int} {rest : List Input} (hr : s.resetHeld = false) (h8 : off % 8 = 0)
    (h0 : 0 ≤ off) (h1 : off < 0x80) (h : s.inputs = .bus (readOf m off) :: rest) :
    step s = .next { s with inputs := rest, reply := some ⟨m, .data (toLanes (s.readReg (regAt off)))⟩ } := by
  have hl : (readOf m off).legal = true := (Access.legal_iff _).mpr ⟨rfl, rfl, h8, h0, h1⟩
  rw [step_bus hr h, State.access_legal_read _ hl rfl]
  have hread : State.readReg { s with inputs := rest } (regAt off) = s.readReg (regAt off) := s.readReg_border s.reply rest _
  rw [show (readOf m off).off = off from rfl, hread]
  rfl

/-- Settles O10: a legal read answers the register at the offset, and `State.readReg_regAt` says which. -/
theorem legalReadReturnsRegister : Obligations.LegalReadReturnsRegister := by
  intro s m off rest hr h8 h0 h1 hin
  rw [step_read hr h8 h0 h1 hin, State.readReg_regAt]

/-- Settles O11: the access is not legal, so the response is all it leaves. -/
theorem illegalAccessGetsBusError : Obligations.IllegalAccessGetsBusError := by
  intro s acc rest hr hin hbad
  have hl : acc.legal = false := Bool.eq_false_iff.mpr (fun h => hbad (acc.legal_iff.mp h))
  rw [step_bus hr hin, State.access_illegal _ hl]
  rfl

/-- Settles O12: each of the offsets selects `reserved`, which reads as 0, is not guarded and stores nothing. -/
theorem reservedOffsetsInert : Obligations.ReservedOffsetsInert := by
  intro s m off lanes rest hr hoff h8
  have hreg : regAt off = .reserved ∧ off % 8 = 0 ∧ 0 ≤ off ∧ off < 0x80 := by
    revert off; decide
  obtain ⟨hres, hmod, h0, h1⟩ := hreg
  refine ⟨fun hin => ?_, fun hin => ?_⟩
  · rw [step_read hr hmod h0 h1 hin, hres]
    rfl
  · rw [step_write hr hmod h0 h1 h8 hin, hres, State.writeReg_unguarded rfl]
    rfl

/-! ### The response port and the events to come -/

/-- A legal write neither looks at nor writes the last response and the events to come. -/
theorem State.writeReg_border (s : State) (p : Option Reply) (evs : List Input) (r : Reg) (v : Word) :
    State.writeReg { s with reply := p, inputs := evs } r v = { s.writeReg r v with reply := p, inputs := evs } := by
  rcases s.writeReg_cases r v with ⟨hb, hg, e⟩ | ⟨hn, e⟩
  · rw [e, State.writeReg_busy (by exact hb) hg]
  · have e' : State.writeReg { s with reply := p, inputs := evs } r v =
        State.storeReg { s with reply := p, inputs := evs } r v := by
      rcases State.writeReg_cases { s with reply := p, inputs := evs } r v with ⟨hb, hg, _⟩ | ⟨_, e'⟩
      · exact absurd ⟨hb, hg⟩ hn
      · exact e'
    rw [e, e']
    cases r with
    | cmd =>
      simp only [State.storeReg, State.issue]
      cases decodeWord v <;> rfl
    | _ => rfl

/-- An access does not look at the last response, and neither looks at nor takes an event to come. -/
theorem State.access_border (s : State) (p : Option Reply) (evs : List Input) (acc : Access) :
    State.access { s with reply := p, inputs := evs } acc = { s.access acc with inputs := evs } := by
  cases hl : acc.legal
  · rw [State.access_illegal _ hl, State.access_illegal _ hl]
    rfl
  · cases ht : acc.transfer with
    | read k =>
      rw [State.access_legal_read _ hl ht, State.access_legal_read _ hl ht, State.readReg_border]
      rfl
    | write lanes =>
      rw [State.access_legal_write _ hl ht, State.access_legal_write _ hl ht, State.writeReg_border]
      rfl

/-- An access leaves the events to come (R66). -/
theorem State.access_setInputs (s : State) (evs : List Input) (acc : Access) :
    State.access { s with inputs := evs } acc = { s.access acc with inputs := evs } :=
  s.access_border s.reply evs acc

/-- An access takes no event to come (R66). -/
theorem State.access_inputs (s : State) (acc : Access) : (s.access acc).inputs = s.inputs :=
  (congrArg State.inputs (s.access_setInputs s.inputs acc)).trans rfl

/-- A response left before makes no difference to an access (R61). -/
theorem State.access_respond (s : State) (acc acc' : Access) (ans : Answer) :
    (s.respond acc' ans).access acc = s.access acc := by
  calc (s.respond acc' ans).access acc
      = { s.access acc with inputs := s.inputs } := s.access_border (some ⟨acc'.master, ans⟩) s.inputs acc
    _ = s.access acc := by rw [← s.access_inputs acc]

/-- A bus access put before the events to come happens to the state that it meets (R61, R66). -/
theorem step_bus_cons {s : State} (hr : s.resetHeld = false) (acc : Access) (rest : List Input) :
    step { s with inputs := .bus acc :: rest } = .next { s.access acc with inputs := rest } := by
  rw [step_bus (s := { s with inputs := .bus acc :: rest }) hr rfl]
  exact congrArg _ (s.access_setInputs rest acc)

/-! ### The master -/

/-- The state and the answer of an access do not depend on its master (R69). -/
theorem State.access_master (s : State) (acc : Access) :
    ∃ (u : State) (ans : Answer), ∀ m, s.access { acc with master := m } = u.respond { acc with master := m } ans := by
  obtain ⟨m₀, off, burst, transfer⟩ := acc
  cases hl : Access.legal ⟨m₀, off, burst, transfer⟩
  · exact ⟨s, .busError (Config.busAddr off), fun _ => s.access_illegal hl⟩
  · cases transfer with
    | read k => exact ⟨s, .data (toLanes (s.readReg (regAt off))), fun _ => s.access_legal_read hl rfl⟩
    | write lanes => exact ⟨s.writeReg (regAt off) (ofLanes lanes), .normal, fun _ => s.access_legal_write hl rfl⟩

/-- Settles O19: both accesses leave the state and the answer of `State.access_master`. -/
theorem masterMakesNoDifference : Obligations.MasterMakesNoDifference := by
  intro s acc m rest hr
  obtain ⟨u, ans, hu⟩ := s.access_master acc
  have hown : s.access acc = u.respond acc ans := hu acc.master
  refine ⟨{ u with inputs := rest }, ans, ?_, ?_⟩
  · rw [step_bus_cons hr, hown]
    rfl
  · rw [step_bus_cons hr, hu m]
    rfl

/-! ### Idempotence -/

/-- A write to another register than CMD leaves BUSY (R37). -/
theorem State.storeReg_phase (s : State) {r : Reg} (hr : r ≠ .cmd) (v : Word) : (s.storeReg r v).phase = s.phase := by
  cases r with
  | cmd => exact absurd rfl hr
  | _ => rfl

/-- Storing the same value twice is storing it once, but for CMD (R65). -/
theorem State.storeReg_idem (s : State) {r : Reg} (hr : r ≠ .cmd) (v : Word) :
    (s.storeReg r v).storeReg r v = s.storeReg r v := by
  cases r with
  | cmd => exact absurd rfl hr
  | status => simp [State.storeReg, State.writeStatus]
  | _ => rfl

/-- A legal write to another register than CMD is idempotent, dropped or performed (R65). -/
theorem State.writeReg_idem (s : State) {r : Reg} (hr : r ≠ .cmd) (v : Word) :
    (s.writeReg r v).writeReg r v = s.writeReg r v := by
  rcases s.writeReg_cases r v with ⟨hb, hg, e⟩ | ⟨hn, e⟩ <;> rw [e]
  · exact State.writeReg_busy (by exact hb) hg v
  · rcases (s.storeReg r v).writeReg_cases r v with ⟨hb, hg, _⟩ | ⟨_, e'⟩
    · exact absurd ⟨s.storeReg_phase hr v ▸ hb, hg⟩ hn
    · rw [e', s.storeReg_idem hr]

/-- Every access but a write to CMD is idempotent on the state and the response (R65). -/
theorem State.access_idem (s : State) {acc : Access} (h : acc.off ≠ 0x00 ∨ ∃ k, acc.transfer = .read k) :
    (s.access acc).access acc = s.access acc := by
  cases hl : acc.legal
  · rw [s.access_illegal hl, State.access_respond, s.access_illegal hl]
  · cases ht : acc.transfer with
    | read k => rw [s.access_legal_read hl ht, State.access_respond, s.access_legal_read hl ht]
    | write lanes =>
      have hoff : acc.off ≠ 0x00 := h.resolve_right (by simp [ht])
      have hreg : regAt acc.off ≠ .cmd := fun hc => hoff (off_of_regAt hc nofun)
      rw [s.access_legal_write hl ht, State.access_respond, State.access_legal_write _ hl ht, s.writeReg_idem hreg]

/-- Settles O20: the second access meets the state that the first left, and `State.access_idem` applies. -/
theorem accessIdempotent : Obligations.AccessIdempotent := by
  intro s t acc rest hacc hst
  rcases Bool.eq_false_or_eq_true s.resetHeld with hr | hr
  · rw [step_cons rfl] at hst
    simp [onInput, busTurn, hr] at hst
  · rw [step_bus_cons hr] at hst
    cases hst
    rw [step_bus_cons (s.access_resetHeld acc ▸ hr), step_bus_cons hr, s.access_idem hacc]

/-! ### The results stay after the completion -/

/-- The events that R68 lets pass: the engine's turn, an answer of the inverse unit, a read of any kind. -/
def Input.Quiet (ev : Input) : Prop :=
  ev = .engine ∨ (∃ k v, ev = .invRsp k v) ∨ ∃ acc k, ev = .bus acc ∧ acc.transfer = .read k

/-- An idle machine that waits for no answer lets a quiet event pass but for the response of a read (R61, R222, R228). -/
theorem step_quiet {s : State} {ev : Input} {rest : List Input} (hi : s.phase = .idle) (hp : s.invPending = false)
    (hr : s.resetHeld = false) (hq : ev.Quiet) (h : s.inputs = ev :: rest) :
    ∃ p, step s = .next { s with reply := p, inputs := rest } := by
  rcases hq with rfl | ⟨k, v, rfl⟩ | ⟨acc, k, rfl, ht⟩
  · exact ⟨s.reply, by rw [step_cons h]; simp [onInput, engineTurn, hi]⟩
  · exact ⟨s.reply, by rw [step_cons h]; simp [onInput, State.inverseResponse, hp]⟩
  · obtain ⟨ans, e⟩ := State.access_of_read { s with inputs := rest } ht
    exact ⟨_, by rw [step_bus hr h, e]; rfl⟩

/-- An idle machine that waits for no answer lets any number of quiet events pass (R68). -/
theorem run_quiet (evs rest : List Input) {s : State} (hi : s.phase = .idle) (hp : s.invPending = false)
    (hr : s.resetHeld = false) (hq : ∀ ev ∈ evs, ev.Quiet) (h : s.inputs = evs ++ rest) :
    ∃ p, Host.Core.run Sys2Proof.core evs.length s = .next { s with reply := p, inputs := rest } := by
  induction evs generalizing s with
  | nil => exact ⟨s.reply, by rw [← show s.inputs = rest from h]; rfl⟩
  | cons ev evs ih =>
    obtain ⟨hev, hevs⟩ := List.forall_mem_cons.mp hq
    obtain ⟨p, hstep⟩ := step_quiet hi hp hr hev h
    obtain ⟨p', hrun⟩ := ih (s := { s with reply := p, inputs := evs ++ rest }) hi hp hr hevs rfl
    exact ⟨p', (run_ok hstep).trans hrun⟩

/-- Settles O32: an idle machine waits for no answer, so the events leave all but the response. -/
theorem resultsStayUntilNextWrite : Obligations.ResultsStayUntilNextWrite := by
  intro s evs rest hinv hi hr hq hin
  obtain ⟨p, hrun⟩ := run_quiet evs rest hi (hinv.invPending_of_idle hi) hr hq hin
  exact ⟨_, hrun, hi, rfl, rfl, rfl, rfl⟩

end Sys2Proof.Machine
end

section
/-! SUPPORT. Proofs of the statements about the encoding (spec/30_encoding.md): which words and which bytes are a
command, and that a machine that meets the invariant always holds one when the engine has its turn on it. -/

namespace Sys2Proof.Machine

open Sys2Proof

/-! ### Command words -/

/-- The word of a command carries the command's opcode (R80, R81). -/
theorem opField_encodeWord (i : Instr) : opField (encodeWord i) = encodeOp i := by
  cases i <;> decide

/-- The decoder answers a command exactly for the legal words that carry its opcode (R82). -/
theorem decodeWord_eq_ok_iff_opField {v : Word} {i : Instr} :
    decodeWord v = .ok i ↔ wordLegal v = true ∧ opField v = encodeOp i := by
  rcases decodeWord_cases v with ⟨hl, j, hd, ho⟩ | ⟨hl, err, hd⟩
  · rw [hd, ← decodeOp_eq_some, ho]
    simp [hl]
  · simp [hd, hl]

/-- RSV is 0 in a legal word, so its opcode is the whole of it (R80, R82). -/
theorem eq_of_wordLegal_of_opField_eq {v v' : Word} (hv : wordLegal v = true) (hv' : wordLegal v' = true)
    (h : opField v = opField v') : v = v' := by
  obtain ⟨hrsv, -⟩ := (wordLegal_iff v).mp hv
  obtain ⟨hrsv', -⟩ := (wordLegal_iff v').mp hv'
  have hop : v.toNat % 2 ^ 4 = v'.toNat % 2 ^ 4 := by rw [← opField_toNat, h, opField_toNat]
  exact BitVec.eq_of_toNat_eq (by omega)

/-- A word selects a command exactly if it is the command's word (R81, R82). -/
theorem decodeWord_eq_ok {v : Word} {i : Instr} : decodeWord v = .ok i ↔ v = encodeWord i := by
  rw [decodeWord_eq_ok_iff_opField]
  constructor
  · rintro ⟨hl, hop⟩
    exact eq_of_wordLegal_of_opField_eq hl (wordLegal_encodeWord i) (hop.trans (opField_encodeWord i).symm)
  · rintro rfl
    exact ⟨wordLegal_encodeWord i, opField_encodeWord i⟩

/-- The decoder answers some command exactly for the legal words (R82). -/
theorem exists_decodeWord_eq_ok_iff {v : Word} : (∃ i, decodeWord v = .ok i) ↔ wordLegal v = true := by
  rcases decodeWord_cases v with ⟨hl, i, hd, -⟩ | ⟨hl, err, hd⟩
  · exact ⟨fun _ => hl, fun _ => ⟨i, hd⟩⟩
  · simp [hd, hl]

/-- Settles O23: the legal words decode, and the opcode of the command is the word's own. -/
theorem legalWordsExactly : Obligations.LegalWordsExactly := by
  intro v
  refine ⟨exists_decodeWord_eq_ok_iff.trans (wordLegal_iff v), fun i hd => ?_⟩
  obtain ⟨-, hop⟩ := decodeWord_eq_ok_iff_opField.mp hd
  rw [← hop, opField_toNat]

/-! ### The bytes of a command -/

/-- Bytes decode exactly if they are eight and the word they carry decodes (R64, R85). -/
theorem decode_eq_ok_iff {bs : List Byte} {i : Instr} :
    decode bs = .ok i ↔ bs.length = 8 ∧ decodeWord (ofLanes bs) = .ok i := by
  by_cases h8 : bs.length = 8 <;> simp [decode, h8]

/-- Eight lanes that carry a value are the lanes of the value, and no other bytes are (R64). -/
theorem eq_toLanes_iff {bs : List Byte} {v : Word} : bs = toLanes v ↔ bs.length = 8 ∧ ofLanes bs = v := by
  constructor
  · rintro rfl
    exact ⟨toLanes_length v, ofLanes_toLanes v⟩
  · rintro ⟨h8, rfl⟩
    exact (toLanes_ofLanes h8).symm

/-- Settles O22: eight bytes and the word they carry determine each other, and so do a command and its word. -/
theorem decodeExactlyEncodings : Obligations.DecodeExactlyEncodings := by
  intro bs i
  rw [decode_eq_ok_iff, decodeWord_eq_ok, encode, eq_toLanes_iff]

/-- Settles O21: closed facts of the decoder, which it evaluates. -/
theorem decodeListedWords : Obligations.DecodeListedWords := by
  unfold Obligations.DecodeListedWords
  decide

/-! ### Every step goes on -/

/-- With no event waiting the engine has its turn (log entry 2). -/
theorem step_nil {s : State} (h : s.inputs = []) : step s = engineTurn s := by
  simp [step, turn, h]

/-- An idle engine's turn changes nothing (R228). -/
theorem engineTurn_idle {s : State} (hi : s.phase = .idle) : engineTurn s = .next s := by
  simp [engineTurn, hi]

/-- The engine's turn on a command in flight is `exec` of it (R216). -/
theorem engineTurn_inFlight {s : State} {i : Instr} (hf : s.inFlight i) : engineTurn s = exec i s := by
  obtain ⟨hb, ho⟩ := hf
  simp [engineTurn, hb, ho]

/-- The engine's turn goes on where BUSY means that `w.op` holds a command (R215, log entry 15). -/
theorem State.BusyOk.engineTurn_next {s : State} (h : s.BusyOk) : ∃ t, engineTurn s = .next t := by
  cases hp : s.phase with
  | idle => exact ⟨s, engineTurn_idle hp⟩
  | busy =>
    obtain ⟨hop, -⟩ := h hp
    obtain ⟨i, hi⟩ := Option.isSome_iff_exists.mp hop
    exact ⟨_, (engineTurn_inFlight ⟨hp, hi⟩).trans (exec_eq_conclude i s)⟩

/-- Settles O5: the engine's turn goes on by the invariant, a bus access because reset is not asserted, and the other
events in every state. -/
theorem stepAlwaysGoesOn : Obligations.StepAlwaysGoesOn := by
  intro s hinv hbus
  cases hin : s.inputs with
  | nil =>
    rw [step_nil hin]
    exact hinv.busyOk.engineTurn_next
  | cons ev rest =>
    cases ev with
    | bus acc =>
      have hr : s.resetHeld = false := Bool.eq_false_iff.mpr fun hr => hbus ⟨hr, acc, rest, hin⟩
      exact ⟨_, step_bus hr hin⟩
    | engine =>
      rw [step_cons hin]
      exact (hinv.setInputs rest).busyOk.engineTurn_next
    | invRsp req v => exact ⟨_, step_cons hin⟩
    | resetAssert => exact ⟨_, step_cons hin⟩
    | resetRelease => exact ⟨_, step_cons hin⟩

end Sys2Proof.Machine
end

section
/-! SUPPORT. Proofs of the statements about Montgomery-form conversion (spec/40_conversion.md): what one TO_MONT and one
FROM_MONT leave, and what the words they leave represent in the Montgomery domain. -/

namespace Sys2Proof.Machine

open Sys2Proof

/-! ### TO_MONT -/

/-- The factor that TO_MONT multiplies by: the cache, or `R mod n` where the cache is empty (R100). -/
def montFactor (n c : Word) : Word := if c = 0 then rModN n else c

/-- The factor of a cache that is the factor already. -/
theorem montFactor_montFactor (n c : Word) : montFactor n (montFactor n c) = montFactor n c := by
  by_cases hc : c = 0
  · simp only [montFactor, hc, if_true, ite_self]
  · simp only [montFactor, hc, if_false]

/-- The factor by its value, `2^64 mod n` where the cache is empty (R101). -/
theorem montFactor_toNat {n : Word} (hn : 0 < n.toNat) (c : Word) :
    (montFactor n c).toNat = if c = 0 then 2 ^ 64 % n.toNat else c.toNat := by
  by_cases hc : c = 0
  · simp only [montFactor, hc, if_true, rModN_toNat n hn]
  · simp only [montFactor, hc, if_false]

/-- The factor is `2^64 mod n` if the cache is empty or holds that value (R106). -/
theorem montFactor_toNat_of_cache {n c : Word} (hn : 0 < n.toNat) (hc : c = 0 ∨ c.toNat = 2 ^ 64 % n.toNat) :
    (montFactor n c).toNat = 2 ^ 64 % n.toNat := by
  rw [montFactor_toNat hn]
  split
  · rfl
  · next h0 => exact hc.resolve_left h0

/-- The product reduced mod `n`, by its value. -/
theorem mulMod_toNat {n : Word} (hn : 0 < n.toNat) (x y : Word) :
    (mulMod x y n).toNat = x.toNat * y.toNat % n.toNat :=
  toNat_ofNat_mod _ n hn

/-- TO_MONT at its sentinel (R100). -/
theorem exec_toMont_of_even {s : State} (h : s.n.toNat % 2 = 0) : exec .toMont s = .next (s.complete 0 none s.w) := by
  rw [exec_eq_conclude, ruleOf, toMontRule, if_pos (Or.inr h)]
  rfl

/-- TO_MONT on an odd modulus leaves the product in RES and the factor in RMODN, which held it before if it was not
empty (R100). -/
theorem exec_toMont_of_odd {s : State} (h : s.n.toNat % 2 = 1) :
    exec .toMont s = .next
      (s.complete (mulMod s.a (montFactor s.n s.rmodn) s.n) (some (montFactor s.n s.rmodn)) s.w) := by
  have hguard : ¬ (s.n.toNat = 0 ∨ EvenModulus s.n) := by unfold EvenModulus; omega
  rw [exec_eq_conclude, ruleOf, toMontRule, if_neg hguard, montFactor]
  split <;> rfl

/-- Settles O34: the guard fails exactly for an odd modulus, and there the factor is both multiplied by and kept. -/
theorem toMontResult : Obligations.ToMontResult := by
  intro s
  rcases Nat.mod_two_eq_zero_or_one s.n.toNat with hev | hodd
  · exact ⟨_, exec_toMont_of_even hev, by simp [hev], by simp [hev], rfl, rfl, rfl, rfl⟩
  · have hn : 0 < s.n.toNat := by omega
    have hguard : ¬ (s.n.toNat = 0 ∨ s.n.toNat % 2 = 0) := by omega
    refine ⟨_, exec_toMont_of_odd hodd, ?_, ?_, rfl, rfl, rfl, rfl⟩
    · rw [if_neg hguard, State.complete_res, mulMod_toNat hn, montFactor_toNat hn]
    · rw [State.complete_rmodn, Option.getD_some, montFactor_toNat hn]
      by_cases hc : s.rmodn = 0 <;> simp [hc, hguard]

/-- Settles O35: the second run finds the factor of the first in the cache, so it multiplies by the same factor. -/
theorem idempotentCaching : Obligations.IdempotentCaching := by
  intro s hodd h3 hc
  have hfactor := montFactor_toNat_of_cache (n := s.n) (by omega) (Or.inl hc)
  refine ⟨_, _, exec_toMont_of_odd hodd, exec_toMont_of_odd hodd, ?_, hfactor, ?_⟩
  · simp [montFactor_montFactor]
  · simpa [montFactor_montFactor] using hfactor

/-! ### FROM_MONT -/

/-- `(-v) mod 2^64` of a word. -/
theorem neg64_toNat (v : Word) : neg64 v.toNat = (2 ^ 64 - v.toNat) % 2 ^ 64 := by
  rw [neg64, Nat.mod_eq_of_lt v.isLt]

/-- The sum of FROM_MONT fits 128 bits (R105). -/
theorem redc_single_sum_lt (a n : Word) {m : Nat} (hm : m < 2 ^ 64) : a.toNat + m * n.toNat < 2 ^ 128 := by
  have hprod : m * n.toNat ≤ (2 ^ 64 - 1) * (2 ^ 64 - 1) :=
    Nat.mul_le_mul (Nat.le_pred_of_lt hm) (Nat.le_pred_of_lt n.isLt)
  have ha := a.isLt
  omega

/-- FROM_MONT at its sentinels (R104). -/
theorem exec_fromMont_of_guard {s : State} (h : s.n.toNat < 2 ∨ s.n.toNat % 2 = 0) :
    exec .fromMont s = .next (s.complete 0 none s.w) := by
  rw [exec_eq_conclude, ruleOf, fromMontRule, if_pos h]
  rfl

/-- FROM_MONT past its guard is the REDC step of A, reduced mod `n` (R104). -/
theorem exec_fromMont_of_not_guard {s : State} (h : ¬ (s.n.toNat < 2 ∨ s.n.toNat % 2 = 0)) :
    exec .fromMont s = .next (s.complete (redcReduce s.a s.n s.ninv s.rmodn) none s.w) := by
  rw [exec_eq_conclude, ruleOf, fromMontRule, if_neg h]
  rfl

/-- Settles O36: the sum is below `2^128`, so the REDC step is one division and one remainder. -/
theorem fromMontResult : Obligations.FromMontResult := by
  intro s
  refine ⟨redc_single_sum_lt s.a s.n (Nat.mod_lt _ (by norm_num)), ?_⟩
  by_cases hguard : s.n.toNat < 2 ∨ s.n.toNat % 2 = 0
  · exact ⟨_, exec_fromMont_of_guard hguard, by rw [if_pos hguard]; rfl, rfl, rfl, rfl, rfl⟩
  · refine ⟨_, exec_fromMont_of_not_guard hguard, ?_, rfl, rfl, rfl, rfl⟩
    rw [if_neg hguard, State.complete_res, redcReduce_eq _ _ _ _ (by omega), neg64_toNat]

/-! ### What the words of the conversions represent -/

/-- FROM_MONT past its guard gives the reduced value of what `ar` represents (R106, R107). -/
theorem redcReduce_toNat_of_repr {ar n ninv rmodn : Word} {v : Nat} (h1 : n.toNat % 2 = 1)
    (hinv : Config.InvContract n ninv) (hv : repr64 n.toNat ar = (v : ZMod n.toNat)) :
    (redcReduce ar n ninv rmodn).toNat = v % n.toNat := by
  have hn : 0 < n.toNat := by omega
  have hlt : (redcReduce ar n ninv rmodn).toNat < n.toNat := by
    rw [redcReduce_eq _ _ _ _ hn]
    exact Nat.mod_lt _ hn
  have hmod : (redcReduce ar n ninv rmodn).toNat ≡ v [MOD n.toNat] :=
    (ZMod.natCast_eq_natCast_iff _ _ _).mp ((redcReduce_repr h1 hinv).trans hv)
  exact (Nat.mod_eq_of_lt hlt).symm.trans hmod

/-- A word represents its product with any inverse of `2^64` modulo `n` (R107). -/
theorem repr64_eq_mul_inverse {n rinv : Nat} (h1 : n % 2 = 1) (hr : 2 ^ 64 * rinv ≡ 1 [MOD n]) (x : Word) :
    repr64 n x = ((x.toNat * rinv : Nat) : ZMod n) := by
  have hr' : ((2 ^ 64 * rinv : Nat) : ZMod n) = ((1 : Nat) : ZMod n) := (ZMod.natCast_eq_natCast_iff _ _ _).mpr hr
  apply R_cancel h1
  calc repr64 n x * ((2 ^ 64 : Nat) : ZMod n)
      = (x.toNat : ZMod n) := repr64_mul_R h1 x
    _ = (x.toNat : ZMod n) * ((2 ^ 64 * rinv : Nat) : ZMod n) := by rw [hr', Nat.cast_one, mul_one]
    _ = ((x.toNat * rinv : Nat) : ZMod n) * ((2 ^ 64 : Nat) : ZMod n) := by
      rw [← Nat.cast_mul, ← Nat.cast_mul, Nat.mul_comm (2 ^ 64), Nat.mul_assoc]

/-- The product with `R mod n` represents the other operand (R106). -/
theorem repr64_mulMod_rModN {n c : Word} (h1 : n.toNat % 2 = 1) (hc : c.toNat = 2 ^ 64 % n.toNat) (a : Word) :
    repr64 n.toNat (mulMod a c n) = (a.toNat : ZMod n.toNat) := by
  apply R_cancel h1
  rw [repr64_mul_R h1, mulMod_toNat (by omega), ZMod.natCast_mod, hc, Nat.cast_mul, ZMod.natCast_mod]

/-- Settles O37: the REDC sum is a multiple of `2^64`, and the result is what A represents. -/
theorem fromMontCongruence : Obligations.FromMontCongruence := by
  intro s rinv hodd h3 hinv hrinv
  have hguard : ¬ (s.n.toNat < 2 ∨ s.n.toNat % 2 = 0) := by omega
  have hr : 2 ^ 64 * rinv ≡ 1 [MOD s.n.toNat] := hrinv.trans (Nat.mod_eq_of_lt (by omega)).symm
  refine ⟨?_, _, exec_fromMont_of_not_guard hguard, ?_, ?_⟩
  · rw [← neg64_toNat]
    exact Nat.mod_eq_zero_of_dvd (dvd_redc_sum hinv)
  · rw [State.complete_res, redcReduce_eq _ _ _ _ (by omega), neg64_toNat]
  · exact redcReduce_toNat_of_repr hodd hinv (repr64_eq_mul_inverse hodd hr s.a)

/-- Settles O38: TO_MONT leaves a word that represents `a`, and FROM_MONT gives what its operand represents. -/
theorem montgomeryRoundTrip : Obligations.MontgomeryRoundTrip := by
  intro s hodd h3 hinv hcache
  have hguard : ¬ (s.n.toNat < 2 ∨ s.n.toNat % 2 = 0) := by omega
  have hfactor := montFactor_toNat_of_cache (by omega) hcache
  have hres : (redcReduce (mulMod s.a (montFactor s.n s.rmodn) s.n) s.n s.ninv (montFactor s.n s.rmodn)).toNat =
      s.a.toNat % s.n.toNat :=
    redcReduce_toNat_of_repr hodd hinv (repr64_mulMod_rModN hodd hfactor s.a)
  exact ⟨_, _, exec_toMont_of_odd hodd, exec_fromMont_of_not_guard hguard, hres,
    fun hlt => BitVec.eq_of_toNat_eq (hres.trans (Nat.mod_eq_of_lt hlt))⟩

end Sys2Proof.Machine
end

section
/-! SUPPORT. Proofs of the statements about Montgomery multiplication (spec/41_montgomery_multiply.md): the REDC multiplier
on a 129-bit adder, its correction, and the product it represents. -/

namespace Sys2Proof.Machine

open Sys2Proof

/-! ### MONT_MUL -/

/-- MONT_MUL at its sentinels (R121). -/
theorem exec_montMul_of_guard {s : State} (h : s.n.toNat < 2 ∨ s.n.toNat % 2 = 0) :
    exec .montMul s = .next (s.complete 0 none s.w) := by
  rw [exec_eq_conclude, ruleOf, montMulRule, if_pos h]
  rfl

/-- MONT_MUL past its guard is REDC_MUL of A and B, not reduced (R121). -/
theorem exec_montMul_of_not_guard {s : State} (h : ¬ (s.n.toNat < 2 ∨ s.n.toNat % 2 = 0)) :
    exec .montMul s = .next (s.complete (redcMul s.a s.b s.n s.ninv s.rmodn) none s.w) := by
  rw [exec_eq_conclude, ruleOf, montMulRule, if_neg h]
  rfl

/-- A consistent context is past the guard (R122). -/
theorem State.ConsistentContext.exec_montMul {s : State} (h : s.ConsistentContext) :
    exec .montMul s = .next (s.complete (redcMul s.a s.b s.n s.ninv s.rmodn) none s.w) := by
  obtain ⟨hodd, h3, -, -⟩ := h
  exact exec_montMul_of_not_guard (by omega)

/-! ### The REDC multiplier on words -/

/-- The product of two words is at most the square of the greatest word (R120). -/
theorem mul_toNat_le (x y : Word) : x.toNat * y.toNat ≤ (2 ^ 64 - 1) * (2 ^ 64 - 1) :=
  Nat.mul_le_mul (Nat.le_pred_of_lt x.isLt) (Nat.le_pred_of_lt y.isLt)

/-- The factor `m` of R120 in wrapping word arithmetic. -/
theorem neg_mul_mul_toNat (x y ninv : Word) :
    (-(x * y) * ninv).toNat = neg64 (x.toNat * y.toNat) * ninv.toNat % 2 ^ 64 := by
  rw [BitVec.toNat_mul, BitVec.toNat_neg, BitVec.toNat_mul, neg64]

/-- The sum of two products of words is exact in 129 bits (R120). -/
theorem sum_products_toNat (x y m n : Word) :
    (x.setWidth 129 * y.setWidth 129 + m.setWidth 129 * n.setWidth 129 : BitVec 129).toNat =
      x.toNat * y.toNat + m.toNat * n.toNat := by
  have hsum := redc_sum_lt (mul_toNat_le x y) m.isLt n.isLt
  have hext (v : Word) : (v.setWidth 129).toNat = v.toNat := BitVec.toNat_setWidth_of_le (by norm_num)
  rw [BitVec.toNat_add, BitVec.toNat_mul, BitVec.toNat_mul, hext, hext, hext, hext, ← Nat.add_mod, Nat.mod_eq_of_lt hsum]

/-- The top bit of 129 bits is the carry out of 128 bits (R120). -/
theorem getLsbD_128_iff (v : BitVec 129) : v.getLsbD 128 = true ↔ 2 ^ 128 ≤ v.toNat := by
  have hmsb : v.getLsbD 128 = v.msb := v.msb_eq_getLsbD_last.symm
  rw [hmsb, BitVec.msb_eq_decide, decide_eq_true_iff]

/-- Bits 127:64 of a sum, by division. -/
theorem extractLsb'_64_64 (v : BitVec 129) : v.extractLsb' 64 64 = BitVec.ofNat 64 (v.toNat / 2 ^ 64 % 2 ^ 64) := by
  apply BitVec.eq_of_toNat_eq
  rw [BitVec.extractLsb'_toNat, BitVec.toNat_ofNat, Nat.mod_mod, Nat.shiftRight_eq_div_pow]

/-- The REDC step in words: bits 127:64 of the sum, plus `rmodn` on a carry out of 128 bits (R120). -/
theorem redc_eq_of_sum {p : Nat} {n ninv rmodn : Word} {sum : BitVec 129}
    (hsum : sum.toNat = p + neg64 p * ninv.toNat % 2 ^ 64 * n.toNat) :
    redc p n ninv rmodn =
      if sum.getLsbD 128 then sum.extractLsb' 64 64 + rmodn else sum.extractLsb' 64 64 := by
  simp only [redc, getLsbD_128_iff, extractLsb'_64_64, hsum, BitVec.ofNat_add, BitVec.ofNat_toNat, BitVec.setWidth_eq]

/-- Settles O39: the 129-bit sum is exact, and REDC_MUL reads its carry and its bits 127:64. -/
theorem montMulDatapath : Obligations.MontMulDatapath := by
  intro s
  by_cases hguard : s.n.toNat < 2 ∨ s.n.toNat % 2 = 0
  · exact ⟨_, exec_montMul_of_guard hguard, by rw [if_pos hguard]; rfl, rfl, rfl, rfl, rfl⟩
  · refine ⟨_, exec_montMul_of_not_guard hguard, ?_, rfl, rfl, rfl, rfl⟩
    rw [if_neg hguard, State.complete_res, redcMul]
    exact redc_eq_of_sum (by rw [sum_products_toNat, neg_mul_mul_toNat])

/-! ### The correction -/

/-- A carry of a REDC sum that is a multiple of `2^64` leaves `hi <= n - 2` (R122). -/
theorem redc_hi_le_of_carry {p m n : Nat} (hp : p ≤ (2 ^ 64 - 1) * (2 ^ 64 - 1)) (hm : m < 2 ^ 64) (h2 : 2 ≤ n)
    (hn : n < 2 ^ 64) (hd : 2 ^ 64 ∣ p + m * n) (hc : 2 ^ 128 ≤ p + m * n) :
    (p + m * n) / 2 ^ 64 % 2 ^ 64 ≤ n - 2 := by
  have hhi := redc_hi_le hp hm h2 hd
  have hcarry : 2 ^ 64 ≤ (p + m * n) / 2 ^ 64 := (Nat.le_div_iff_mul_le (by norm_num)).mpr (by omega)
  omega

/-- The REDC step with a carry is the upper half plus `rmodn` where that does not wrap (R120, R122). -/
theorem redc_toNat_of_carry {p hi : Nat} {n ninv rmodn : Word}
    (hhi : (p + neg64 p * ninv.toNat % 2 ^ 64 * n.toNat) / 2 ^ 64 % 2 ^ 64 = hi)
    (hc : 2 ^ 128 ≤ p + neg64 p * ninv.toNat % 2 ^ 64 * n.toNat) (hwrap : hi + rmodn.toNat < 2 ^ 64) :
    (redc p n ninv rmodn).toNat = hi + rmodn.toNat := by
  simp only [redc]
  rw [if_pos hc, hhi, BitVec.toNat_ofNat, Nat.mod_eq_of_lt hwrap]

/-- Settles O40: NINV makes the sum a multiple of `2^64`, which bounds `hi`, and RMODN is `2^64 mod n`. -/
theorem correctionNeverWraps : Obligations.CorrectionNeverWraps := by
  intro s hctx p m hi hcarry
  have hexec := hctx.exec_montMul
  obtain ⟨-, h3, hinv, hr⟩ := hctx
  have hhi : hi ≤ s.n.toNat - 2 :=
    redc_hi_le_of_carry (mul_toNat_le s.a s.b) (Nat.mod_lt _ (by norm_num)) (by omega) s.n.isLt (dvd_redc_sum hinv) hcarry
  have hwrap : hi + s.rmodn.toNat < 2 ^ 64 := hr ▸ redc_no_wrap s.n.isLt (by omega) hhi
  exact ⟨hhi, hwrap, _, hexec, redc_toNat_of_carry rfl hcarry hwrap⟩

/-! ### The product -/

/-- A factor `2^64` moves to the other side as its inverse modulo `n` (R123). -/
theorem modEq_mul_inverse {n rinv x y : Nat} (hr : 2 ^ 64 * rinv ≡ 1 [MOD n]) (h : x * 2 ^ 64 ≡ y [MOD n]) :
    x ≡ y * rinv [MOD n] :=
  calc x = x * 1 := (Nat.mul_one x).symm
    _ ≡ x * (2 ^ 64 * rinv) [MOD n] := (hr.mul_left x).symm
    _ = x * 2 ^ 64 * rinv := (Nat.mul_assoc _ _ _).symm
    _ ≡ y * rinv [MOD n] := h.mul_right rinv

/-- FROM_MONT of REDC_MUL is the product of the FROM_MONT values of the operands, modulo `n` (R123). -/
theorem redcReduce_redcMul {n ninv rmodn : Word} (h1 : n.toNat % 2 = 1) (h3 : 3 ≤ n.toNat)
    (hinv : Config.InvContract n ninv) (hr : rmodn.toNat = 2 ^ 64 % n.toNat) (x y : Word) :
    (redcReduce (redcMul x y n ninv rmodn) n ninv rmodn).toNat ≡
      (redcReduce x n ninv rmodn).toNat * (redcReduce y n ninv rmodn).toNat [MOD n.toNat] := by
  apply (ZMod.natCast_eq_natCast_iff _ _ _).mp
  rw [Nat.cast_mul, redcReduce_repr h1 hinv, redcReduce_repr h1 hinv, redcReduce_repr h1 hinv,
    repr64_redcMul h1 h3 hinv hr]

/-- Settles O41: REDC_MUL times `2^64` is the product of the operands, and FROM_MONT keeps products. -/
theorem montMulCongruence : Obligations.MontMulCongruence := by
  intro s rinv hctx hrinv
  have hexec := hctx.exec_montMul
  obtain ⟨hodd, h3, hinv, hr⟩ := hctx
  have hguard : ¬ (s.n.toNat < 2 ∨ s.n.toNat % 2 = 0) := by omega
  have hR : 2 ^ 64 * rinv ≡ 1 [MOD s.n.toNat] := hrinv.trans (Nat.mod_eq_of_lt (by omega)).symm
  exact ⟨_, _, _, _, hexec, modEq_mul_inverse hR (redcMul_modEq h3 hinv hr), exec_fromMont_of_not_guard hguard,
    exec_fromMont_of_not_guard hguard, exec_fromMont_of_not_guard hguard, redcReduce_redcMul hodd h3 hinv hr s.a s.b⟩

/-- Settles O42: the five products are REDC_MUL of the words given, past the guard. -/
theorem montMulUnreduced : Obligations.MontMulUnreduced := by
  have hpairs : ∀ x ∈ [((3 : Word), (3 : Word)), (3, 6), (6, 3), (6, 6)],
      redcMul x.1 x.2 9 0x8e38e38e38e38e39 7 = 9 := by
    simp only [List.forall_mem_cons]
    exact ⟨rfl, rfl, rfl, rfl, List.forall_mem_nil _⟩
  have hcarry : redcMul 0xffffffffffffffff 0xffffffffffffffff 0x8000000000000001 0x8000000000000001
      0x7fffffffffffffff = 0xbffffffffffffffd := rfl
  have hguard9 : ¬ ((9 : Word).toNat < 2 ∨ (9 : Word).toNat % 2 = 0) := by decide
  exact ⟨fun x hx => ⟨_, exec_montMul_of_not_guard hguard9, hpairs x hx⟩,
    ⟨_, exec_montMul_of_not_guard (by decide), hcarry⟩⟩

end Sys2Proof.Machine
end

section
/-! SUPPORT. Proofs of the statements about Montgomery exponentiation (spec/42_montgomery_pow.md): the fuelled loop is the
loop of R140, what MONT_POW_CORE computes, and how often the loops run. -/

namespace Sys2Proof.Machine

open Sys2Proof

/-! ### The loop -/

/-- The shifted exponent is 0 exactly when the exponent is 0 or 1 (R140). -/
theorem ushift1_eq_zero_iff (f : Word) : f >>> 1 = 0 ↔ f.toNat < 2 := by
  rw [← BitVec.toNat_inj, ushift1]
  exact Nat.div_eq_zero_iff_lt (by norm_num)

/-- The working registers after one turn of the loop of R140 that goes on, `sq` squared at its end. -/
def Work.loopTurn (mul : Word → Word → Word) (w : Work) : Work :=
  { w with
    iter := w.iter + 1
    res := if bit w.f 0 then mul w.res w.sq else w.res
    f := w.f >>> 1
    sq := mul w.sq w.sq }

/-- The last turn of the loop multiplies by `sq` if the exponent is odd (R140). -/
theorem powLoop_res_of_exit {mul : Word → Word → Word} {w : Work} (h : w.f >>> 1 = 0) (fuel : Nat) :
    (powLoop mul (fuel + 1) w).res = if bit w.f 0 then mul w.res w.sq else w.res := by
  rw [powLoop, if_pos h]

/-- A turn with more of the exponent to come goes on from the registers it leaves (R140). -/
theorem powLoop_of_again {mul : Word → Word → Word} {w : Work} (h : w.f >>> 1 ≠ 0) (fuel : Nat) :
    powLoop mul (fuel + 1) w = powLoop mul fuel (w.loopTurn mul) := by
  rw [powLoop, if_neg h]
  rfl

/-- Where the fuel covers the exponent, the fuelled loop ends as the loop with no bound does (R140, R141). -/
theorem powLoop_loopRun {mul : Word → Word → Word} (fuel : Nat) : ∀ w : Work, w.f.toNat < 2 ^ (fuel + 1) →
    LoopRun mul w.res w.sq w.f (powLoop mul (fuel + 1) w).res := by
  have exits (fuel : Nat) (w : Work) (h : w.f >>> 1 = 0) :
      LoopRun mul w.res w.sq w.f (powLoop mul (fuel + 1) w).res := by
    rw [powLoop_res_of_exit h]
    exact .exit w.res w.sq w.f h
  induction fuel with
  | zero => exact fun w hf => exits 0 w ((ushift1_eq_zero_iff w.f).mpr hf)
  | succ k ih =>
    intro w hf
    by_cases h : w.f >>> 1 = 0
    · exact exits (k + 1) w h
    · have hf' : (w.f >>> 1).toNat < 2 ^ (k + 1) := by rw [ushift1]; omega
      rw [powLoop_of_again h]
      exact .again w.res w.sq w.f _ h (ih (w.loopTurn mul) hf')

/-- MONT_POW_CORE is the loop of R140 from `RMODN`, `ar` and `e`, then one reduction. -/
theorem montPowCore_loopRun (ar e n ninv rmodn : Word) (w : Work) :
    ∃ v, LoopRun (fun x y => redcMul x y n ninv rmodn) rmodn ar e v ∧
      (montPowCore ar e n ninv rmodn w).1 = BitVec.ofNat 64 (v.toNat % n.toNat) :=
  ⟨_, powLoop_loopRun 63 { w with res := rmodn, sq := ar, f := e, iter := 0 } e.isLt, rfl⟩

/-! ### MONT_POW -/

/-- MONT_POW at its sentinels (R142). -/
theorem exec_montPow_of_guard {s : State} (h : s.n.toNat < 2 ∨ s.n.toNat % 2 = 0) :
    exec .montPow s = .next (s.complete 0 none s.w) := by
  rw [exec_eq_conclude, ruleOf, montPowRule, if_pos h]
  rfl

/-- MONT_POW past its guard is MONT_POW_CORE, for every A and E (R142, R144). -/
theorem exec_montPow_of_not_guard {s : State} (h : ¬ (s.n.toNat < 2 ∨ s.n.toNat % 2 = 0)) :
    exec .montPow s = .next (s.complete (montPowCore s.a s.e s.n s.ninv s.rmodn s.w).1 none
      (montPowCore s.a s.e s.n s.ninv s.rmodn s.w).2) := by
  rw [exec_eq_conclude, ruleOf, montPowRule, if_neg h]
  rfl

/-- Settles O43: the fuel of the loop covers every exponent, and past the guard the result is the reduced value. -/
theorem montPowIsTheLoop : Obligations.MontPowIsTheLoop := by
  intro s
  obtain ⟨v, hrun, hval⟩ := montPowCore_loopRun s.a s.e s.n s.ninv s.rmodn s.w
  by_cases hguard : s.n.toNat < 2 ∨ s.n.toNat % 2 = 0
  · exact ⟨v, _, hrun, exec_montPow_of_guard hguard, by rw [if_pos hguard]; rfl, rfl, rfl, rfl, rfl⟩
  · refine ⟨v, _, hrun, exec_montPow_of_not_guard hguard, ?_, rfl, rfl, rfl, rfl⟩
    rw [if_neg hguard, State.complete_res, hval, toNat_ofNat_mod _ _ (by omega)]

/-! ### What MONT_POW represents -/

/-- A reduced word that represents `v` is the Montgomery form of `v` (R143). -/
theorem toNat_of_repr64 {n v : Nat} {x : Word} (h1 : n % 2 = 1) (hlt : x.toNat < n)
    (hv : repr64 n x = (v : ZMod n)) : x.toNat = v * 2 ^ 64 % n := by
  have hcast : (x.toNat : ZMod n) = ((v * 2 ^ 64 : Nat) : ZMod n) := by
    rw [← repr64_mul_R h1 x, hv, Nat.cast_mul]
  have hmod : x.toNat ≡ v * 2 ^ 64 [MOD n] := (ZMod.natCast_eq_natCast_iff _ _ _).mp hcast
  exact (Nat.mod_eq_of_lt hlt).symm.trans hmod

/-- Settles O44: the result is reduced and represents the power of what A represents. -/
theorem montPowCorrect : Obligations.MontPowCorrect := by
  rintro s rinv ⟨hodd, h3, hinv, hr⟩ hrinv
  have hguard : ¬ (s.n.toNat < 2 ∨ s.n.toNat % 2 = 0) := by omega
  have hR : 2 ^ 64 * rinv ≡ 1 [MOD s.n.toNat] := hrinv.trans (Nat.mod_eq_of_lt (by omega)).symm
  have hrepr : repr64 s.n.toNat (montPowCore s.a s.e s.n s.ninv s.rmodn s.w).1 =
      ((s.a.toNat * rinv % s.n.toNat) ^ s.e.toNat : Nat) := by
    rw [montPowCore_modEq hodd h3 hinv hr, repr64_eq_mul_inverse hodd hR, Nat.cast_pow, ZMod.natCast_mod]
  exact ⟨_, exec_montPow_of_not_guard hguard, toNat_of_repr64 hodd (montPowCore_lt (by omega)) hrepr⟩

/-! ### The count -/

/-- GEN_POW past its sentinel and its shortcut is POW_CORE (R162). -/
theorem exec_genPow_of_not_guard {s : State} (hn : 2 ≤ s.n.toNat) (ha : 2 ≤ s.a.toNat) :
    exec .genPow s = .next (s.complete (powCore s.a s.e s.n s.w).1 none (powCore s.a s.e s.n s.w).2) := by
  rw [exec_eq_conclude, ruleOf, genPowRule, if_neg (Nat.not_lt.mpr hn), if_neg (Nat.not_lt.mpr ha)]
  rfl

/-- Settles O45: both commands leave the counter of their loop. -/
theorem loopIterations : Obligations.LoopIterations := by
  intro s
  refine ⟨size_le64 s.e, fun hodd h3 => ?_, fun hn ha => ?_⟩
  · exact ⟨_, exec_montPow_of_not_guard (by omega), (montPowCore_work s.a s.e s.n s.ninv s.rmodn s.w).1⟩
  · exact ⟨_, exec_genPow_of_not_guard hn ha, (powCore_work s.a s.e s.n s.w).1⟩

end Sys2Proof.Machine
end

section
/-! SUPPORT. Proof of the statement about general exponentiation (spec/43_general_pow.md): GEN_POW at its sentinel, at its
shortcut and past both, and the shortcut's value as a power. -/

namespace Sys2Proof.Machine

open Sys2Proof

/-- GEN_POW at its sentinel (R162). -/
theorem exec_genPow_of_tooSmall {s : State} (hn : s.n.toNat < 2) :
    exec .genPow s = .next (s.complete 0 none s.w) := by
  rw [exec_eq_conclude, ruleOf, genPowRule, if_pos hn]
  rfl

/-- GEN_POW at its shortcut answers A itself, whatever E is (R162). -/
theorem exec_genPow_of_fixedPoint {s : State} (hn : 2 ≤ s.n.toNat) (ha : s.a.toNat < 2) :
    exec .genPow s = .next (s.complete s.a none s.w) := by
  rw [exec_eq_conclude, ruleOf, genPowRule, if_neg (Nat.not_lt.mpr hn), if_pos ha]
  rfl

/-- A base below 2 is its own power modulo `n`, with 0 as the power of 0 also where the exponent is 0 (R163). -/
theorem fixedPoint_eq_pow_mod {a n : Nat} (hn : 2 ≤ n) (ha : a < 2) (e : Nat) :
    a = if a = 0 then 0 else a ^ e % n := by
  by_cases h0 : a = 0
  · rw [if_pos h0, h0]
  · obtain rfl : a = 1 := by omega
    rw [if_neg h0, one_pow, Nat.mod_eq_of_lt hn]

/-- Settles O46: the sentinel, the shortcut, whose base is its own power, and POW_CORE past both. -/
theorem genPowClosedForm : Obligations.GenPowClosedForm := by
  intro s
  by_cases hn : s.n.toNat < 2
  · exact ⟨_, exec_genPow_of_tooSmall hn, by rw [if_pos hn]; rfl, rfl, rfl, rfl, rfl⟩
  have h2 : 2 ≤ s.n.toNat := Nat.not_lt.mp hn
  by_cases ha : s.a.toNat < 2
  · refine ⟨_, exec_genPow_of_fixedPoint h2 ha, ?_, rfl, rfl, rfl, rfl⟩
    rw [if_neg hn]
    exact fixedPoint_eq_pow_mod h2 ha s.e.toNat
  · refine ⟨_, exec_genPow_of_not_guard h2 (Nat.not_lt.mp ha), ?_, rfl, rfl, rfl, rfl⟩
    have ha0 : s.a.toNat ≠ 0 := by omega
    rw [if_neg hn, if_neg ha0, State.complete_res, powCore_eq h2]

end Sys2Proof.Machine
end

section
/-! SUPPORT. Proofs of the statements about POW_MOD_ODD and POW_MOD (spec/44_dispatch.md): which inverse they ask for, the
results of the odd and of the even path, what both leave in the hidden registers, and the way from the CMD write to DONE. -/

namespace Sys2Proof.Machine

open Sys2Proof

/-! ### The requests -/

/-- The table of R183: `N` is asked for on an odd modulus, its odd part on an even one. -/
theorem inverseArg_eq_some_iff {i : Instr} {a n m : Word} : inverseArg i a n = some m ↔
    ((i = .powModOdd ∨ i = .powMod) ∧ n.toNat % 2 = 1 ∧ 3 ≤ n.toNat ∧ 2 ≤ a.toNat) ∧ m = n ∨
    (i = .powMod ∧ n.toNat % 2 = 0 ∧ 2 ≤ n.toNat ∧ 2 ≤ a.toNat) ∧ m = oddPart n := by
  cases i with
  | toMont | fromMont | montMul | montPow | genPow => simp [inverseArg]
  | powModOdd =>
    simp only [inverseArg]
    split_ifs with hodd
    · simp [hodd, eq_comm]
    · simp [hodd]
  | powMod =>
    simp only [inverseArg]
    split_ifs with hodd heven
    · simp [hodd, eq_comm]
    · simp [heven, eq_comm]
    · simp [hodd, heven]

/-- With no answer, the engine's turn on a command that needs an inverse is the wait for it (R222). -/
theorem exec_eq_awaitInverse {i : Instr} {s : State} {m : Word} (hm : inverseArg i s.a s.n = some m)
    (ha : s.invAnswer = none) : exec i s = .next (s.awaitInverse m) := by
  rcases exec_cases i s with ⟨_, _, _, _, _, _, hnone | hsome⟩ | ⟨m', e, _, hm', _⟩
  · rw [hm] at hnone; cases hnone
  · rw [ha] at hsome; cases hsome
  · obtain rfl : m' = m := Option.some.inj (hm'.symm.trans hm)
    exact e

/-- A command that needs no inverse, or has its answer, completes (R216). -/
theorem exec_eq_complete {i : Instr} {s : State} (h : inverseArg i s.a s.n = none ∨ s.invAnswer.isSome = true) :
    ∃ v fill w, exec i s = .next (s.complete v fill w) := by
  rcases exec_cases i s with ⟨v, fill, w, e, _⟩ | ⟨m, _, _, hm, ha⟩
  · exact ⟨v, fill, w, e⟩
  · simp [hm, ha] at h

/-- With no answer and no request outstanding, the engine's turn sends the request and does nothing else (R222). -/
theorem exec_request {i : Instr} {s : State} {m : Word} (hm : inverseArg i s.a s.n = some m) (ha : s.invAnswer = none)
    (hp : s.invPending = false) :
    exec i s = .next { s with invPending := true, invArg := m, invReqs := s.invReqs + 1 } := by
  simp [exec_eq_awaitInverse hm ha, State.awaitInverse, hp]

/-- With no answer to the request outstanding, the engine's turn changes nothing (R222). -/
theorem exec_waits {i : Instr} {s : State} {m : Word} (hm : inverseArg i s.a s.n = some m) (ha : s.invAnswer = none)
    (hp : s.invPending = true) : exec i s = .next s := by
  simp [exec_eq_awaitInverse hm ha, State.awaitInverse, hp]

/-- Settles O50: the wait for the value of the table, and a completion where the table has none or its answer is held. -/
theorem inverseRequestTable : Obligations.InverseRequestTable := by
  intro s i
  refine ⟨fun hodd ha => ?_, fun heven ha => ?_, fun h => ?_⟩
  · have hm := inverseArg_eq_some_iff.mpr (.inl ⟨hodd, rfl⟩)
    exact ⟨exec_request hm ha, exec_waits hm ha⟩
  · have hm := inverseArg_eq_some_iff.mpr (.inr ⟨heven, rfl⟩)
    obtain ⟨-, -, h2, -⟩ := heven
    obtain ⟨hsplit, hodd, -⟩ := ctz_spec (n := s.n) (by omega)
    exact ⟨fun hp => ⟨oddPart s.n, ctz s.n, hsplit, hodd, exec_request hm ha hp⟩, exec_waits hm ha⟩
  · have hready : inverseArg i s.a s.n = none ∨ s.invAnswer.isSome = true := by
      refine h.symm.imp_left fun hnot => Option.eq_none_iff_forall_ne_some.mpr fun m hm => hnot ?_
      exact (inverseArg_eq_some_iff.mp hm).imp And.left And.left
    obtain ⟨v, fill, w, e⟩ := exec_eq_complete hready
    exact ⟨_, e, rfl, rfl, rfl⟩

/-! ### The host's context -/

/-- Everything the rule of POW_MOD_ODD can end in: a result that leaves RMODN, or, with no answer, the wait (R182). -/
theorem powModOddRule_cases (a e n : Word) (answer : Option Word) (w : Work) :
    (∃ v w', powModOddRule a e n answer w = .value v none w') ∨
    (answer = none ∧ ∃ m, powModOddRule a e n answer w = .needsInverse m) := by
  unfold powModOddRule
  split_ifs
  · exact .inl ⟨_, _, rfl⟩
  · exact .inl ⟨_, _, rfl⟩
  · exact .inl ⟨_, _, rfl⟩
  · cases answer with
    | none => exact .inr ⟨rfl, _, rfl⟩
    | some inv => exact .inl ⟨_, _, rfl⟩

/-- Everything the rule of POW_MOD can end in: a result that leaves RMODN, or, with no answer, the wait (R185). -/
theorem powModRule_cases (a e n : Word) (answer : Option Word) (w : Work) :
    (∃ v w', powModRule a e n answer w = .value v none w') ∨
    (answer = none ∧ ∃ m, powModRule a e n answer w = .needsInverse m) := by
  rcases Nat.mod_two_eq_zero_or_one n.toNat with heven | hodd
  · unfold powModRule
    split_ifs
    · exact .inl ⟨_, _, rfl⟩
    · exact .inl ⟨_, _, rfl⟩
    · cases answer with
      | none => exact .inr ⟨rfl, _, rfl⟩
      | some inv => exact .inl ⟨_, _, rfl⟩
  · rw [powModRule_of_odd hodd]
    exact powModOddRule_cases a e n answer w

/-- Everything the rules of POW_MOD_ODD and POW_MOD can end in. -/
theorem ruleOf_powMod_cases {i : Instr} (hi : i = .powModOdd ∨ i = .powMod) (s : State) :
    (∃ v w, ruleOf i s = .value v none w) ∨ (s.invAnswer = none ∧ ∃ m, ruleOf i s = .needsInverse m) := by
  rcases hi with rfl | rfl
  · exact powModOddRule_cases s.a s.e s.n s.invAnswer s.w
  · exact powModRule_cases s.a s.e s.n s.invAnswer s.w

/-- The rules of POW_MOD_ODD and POW_MOD read A, E, N, the answer held and the working registers only (R183). -/
theorem ruleOf_powMod_congr {i : Instr} (hi : i = .powModOdd ∨ i = .powMod) {s u : State} (ha : u.a = s.a)
    (he : u.e = s.e) (hn : u.n = s.n) (hans : u.invAnswer = s.invAnswer) (hw : u.w = s.w) :
    ruleOf i u = ruleOf i s := by
  rcases hi with rfl | rfl <;> simp only [ruleOf, ha, he, hn, hans, hw]

/-- The wait for the inverse neither reads nor writes NINV and RMODN. -/
theorem State.awaitInverse_setContext (s : State) (x y m : Word) :
    State.awaitInverse { s with ninv := x, rmodn := y } m = { s.awaitInverse m with ninv := x, rmodn := y } := by
  unfold State.awaitInverse
  split <;> rfl

/-- Settles O51: the rule does not read NINV and RMODN, and neither its result nor the wait writes them. -/
theorem hostContextUntouched : Obligations.HostContextUntouched := by
  intro s i x y hi
  have hrule : ruleOf i { s with ninv := x, rmodn := y } = ruleOf i s := ruleOf_powMod_congr hi rfl rfl rfl rfl rfl
  refine ⟨_, exec_eq_conclude i s, ?_⟩
  rw [exec_eq_conclude, hrule]
  rcases ruleOf_powMod_cases hi s with ⟨v, w, e⟩ | ⟨-, m, e⟩ <;> rw [e]
  · exact ⟨rfl, rfl, rfl⟩
  · obtain ⟨g, k, hframe⟩ := s.awaitInverse_frame m
    exact ⟨by rw [State.conclude, hframe], by rw [State.conclude, hframe],
      congrArg _ (s.awaitInverse_setContext x y m)⟩

/-! ### The odd path -/

/-- On an odd modulus both commands follow the rule of POW_MOD_ODD (R182, R185). -/
theorem ruleOf_powMod_of_odd {i : Instr} {s : State} (hi : i = .powModOdd ∨ i = .powMod) (hodd : s.n.toNat % 2 = 1) :
    ruleOf i s = powModOddRule s.a s.e s.n s.invAnswer s.w := by
  rcases hi with rfl | rfl
  · rfl
  · exact powModRule_of_odd hodd s.a s.e s.invAnswer s.w

/-- With the answer held, both commands are ODD_CORE on an odd modulus, past the shortcut (R182, R185). -/
theorem exec_powMod_of_odd {i : Instr} {s : State} {inv : Word} (hi : i = .powModOdd ∨ i = .powMod)
    (hodd : s.n.toNat % 2 = 1) (h3 : 3 ≤ s.n.toNat) (ha : 2 ≤ s.a.toNat) (hans : s.invAnswer = some inv) :
    exec i s = .next (s.complete (oddCore s.a s.e s.n inv s.w).1 none (oddCore s.a s.e s.n inv s.w).2) := by
  have hn : ¬ TooSmall s.n := by unfold TooSmall; omega
  have heven : ¬ EvenModulus s.n := by unfold EvenModulus; omega
  rw [exec_eq_conclude, ruleOf_powMod_of_odd hi hodd, powModOddRule, if_neg hn, if_neg heven, if_neg (Nat.not_lt.mpr ha),
    hans]
  rfl

/-- ODD_CORE leaves `R mod n` and the inverse it was given in the internal context (R180). -/
theorem oddCore_context (a e n inv : Word) (w : Work) :
    (oddCore a e n inv w).2.ctxR = rModN n ∧ (oddCore a e n inv w).2.ctxInv = inv := by
  obtain ⟨r, q, f, k, h⟩ :=
    montPowCore_frame (mulMod a (rModN n) n) e n inv (rModN n) { w with ctxR := rModN n, ctxInv := inv }
  simp only [oddCore, h, and_self]

/-- Settles O53: both commands are ODD_CORE here, which leaves the context and the count. -/
theorem internalContext : Obligations.InternalContext := by
  intro s i inv hi hans hodd h3 ha
  obtain ⟨hctxR, hctxInv⟩ := oddCore_context s.a s.e s.n inv s.w
  obtain ⟨hiter, -⟩ := oddCore_work s.a s.e s.n inv s.w
  refine ⟨_, exec_powMod_of_odd hi hodd h3 ha hans, ?_, hctxInv, hiter⟩
  rw [State.complete_w, hctxR, rModN_toNat s.n (by omega)]

/-! ### The closed forms -/

/-- With the answer held, POW_MOD is EVEN_PATH on an even modulus, past the shortcut (R185). -/
theorem exec_powMod_of_even {s : State} {inv : Word} (heven : s.n.toNat % 2 = 0) (h2 : 2 ≤ s.n.toNat)
    (ha : 2 ≤ s.a.toNat) (hans : s.invAnswer = some inv) :
    exec .powMod s = .next (s.complete (evenPath s.a s.e s.n inv s.w).1 none (evenPath s.a s.e s.n inv s.w).2) := by
  rw [exec_eq_conclude, ruleOf, powModRule, if_neg (Nat.not_lt.mpr h2), if_neg (Nat.not_lt.mpr ha), if_pos heven, hans]
  rfl

/-- POW_MOD_ODD at its sentinels (R182). -/
theorem exec_powModOdd_of_guard {s : State} (h : s.n.toNat < 2 ∨ s.n.toNat % 2 = 0) :
    exec .powModOdd s = .next (s.complete 0 none s.w) := by
  rw [exec_eq_conclude, ruleOf, powModOddRule]
  rcases h with hn | heven
  · rw [if_pos hn]
    rfl
  · rw [if_pos heven, ite_self]
    rfl

/-- POW_MOD at its sentinel (R185). -/
theorem exec_powMod_of_tooSmall {s : State} (hn : s.n.toNat < 2) :
    exec .powMod s = .next (s.complete 0 none s.w) := by
  rw [exec_eq_conclude, ruleOf, powModRule, if_pos hn]
  rfl

/-- POW_MOD at its shortcut answers A itself (R185). -/
theorem exec_powMod_of_fixedPoint {s : State} (hn : 2 ≤ s.n.toNat) (ha : s.a.toNat < 2) :
    exec .powMod s = .next (s.complete s.a none s.w) := by
  rw [exec_eq_conclude, ruleOf, powModRule, if_neg (Nat.not_lt.mpr hn), if_pos ha]
  rfl

/-- On an odd modulus both commands do the same (R184). -/
theorem exec_powMod_eq_powModOdd {s : State} (hodd : s.n.toNat % 2 = 1) : exec .powMod s = exec .powModOdd s := by
  rw [exec_eq_conclude, exec_eq_conclude, ruleOf_powMod_of_odd (.inr rfl) hodd, ruleOf_powMod_of_odd (.inl rfl) hodd]

/-- A command that asks for an inverse, with an answer within the contract, completes with `A^E mod N` (R184, R189). -/
theorem State.InverseAnswered.exec {i : Instr} {s : State} {m : Word} (h : s.InverseAnswered i)
    (hm : inverseArg i s.a s.n = some m) :
    ∃ v w, exec i s = .next (s.complete v none w) ∧ v.toNat = s.a.toNat ^ s.e.toNat % s.n.toNat := by
  obtain ⟨inv, hans, hinv⟩ := h m hm
  rcases inverseArg_eq_some_iff.mp hm with ⟨⟨hi, hodd, h3, ha⟩, rfl⟩ | ⟨⟨rfl, heven, h2, ha⟩, rfl⟩
  · exact ⟨_, _, exec_powMod_of_odd hi hodd h3 ha hans, oddCore_eq hodd h3 hinv⟩
  · exact ⟨_, _, exec_powMod_of_even heven h2 ha hans, evenPath_eq h2 heven hinv⟩

/-- POW_MOD past its sentinel and its shortcut asks for an inverse (R183). -/
theorem exists_inverseArg_powMod {a n : Word} (hn : 2 ≤ n.toNat) (ha : 2 ≤ a.toNat) :
    ∃ m, inverseArg .powMod a n = some m := by
  rcases Nat.mod_two_eq_zero_or_one n.toNat with heven | hodd
  · exact ⟨_, inverseArg_eq_some_iff.mpr (.inr ⟨⟨rfl, heven, hn, ha⟩, rfl⟩)⟩
  · exact ⟨_, inverseArg_eq_some_iff.mpr (.inl ⟨⟨.inr rfl, hodd, by omega, ha⟩, rfl⟩)⟩

/-- Settles O47: the sentinels, the shortcut, whose base is its own power, and the answered request past both. -/
theorem powModOddClosedForm : Obligations.PowModOddClosedForm := by
  refine ⟨fun s h => ?_, fun s => exec_powMod_eq_powModOdd⟩
  by_cases hguard : s.n.toNat < 2 ∨ s.n.toNat % 2 = 0
  · exact ⟨_, exec_powModOdd_of_guard hguard, by rw [if_pos hguard]; rfl, rfl, rfl, rfl, rfl⟩
  have hodd : s.n.toNat % 2 = 1 := by omega
  have h2 : 2 ≤ s.n.toNat := by omega
  rw [if_neg hguard]
  by_cases ha : s.a.toNat < 2
  · rw [← exec_powMod_eq_powModOdd hodd]
    exact ⟨_, exec_powMod_of_fixedPoint h2 ha, fixedPoint_eq_pow_mod h2 ha s.e.toNat, rfl, rfl, rfl, rfl⟩
  · have hm : inverseArg .powModOdd s.a s.n = some s.n :=
      inverseArg_eq_some_iff.mpr (.inl ⟨⟨.inl rfl, hodd, by omega, Nat.not_lt.mp ha⟩, rfl⟩)
    obtain ⟨v, w, e, hv⟩ := h.exec hm
    rw [if_neg (by omega : s.a.toNat ≠ 0)]
    exact ⟨_, e, hv, rfl, rfl, rfl, rfl⟩

/-- Settles O48: the sentinel, the shortcut, and the answered request past both; the factors divide the modulus. -/
theorem powModClosedForm : Obligations.PowModClosedForm := by
  intro s h
  by_cases hn : s.n.toNat < 2
  · rw [if_pos hn]
    exact ⟨_, exec_powMod_of_tooSmall hn, rfl, fun _ _ h2 => absurd hn (Nat.not_lt.mpr h2), rfl, rfl, rfl, rfl⟩
  rw [if_neg hn]
  have h2 : 2 ≤ s.n.toNat := Nat.not_lt.mp hn
  by_cases ha : s.a.toNat < 2
  · rw [if_pos ha]
    exact ⟨_, exec_powMod_of_fixedPoint h2 ha, rfl, fun _ _ _ ha2 => absurd ha (Nat.not_lt.mpr ha2), rfl, rfl, rfl, rfl⟩
  rw [if_neg ha]
  obtain ⟨m, hm⟩ := exists_inverseArg_powMod h2 (Nat.not_lt.mp ha)
  obtain ⟨v, w, e, hv⟩ := h.exec hm
  refine ⟨_, e, hv, fun k m _ _ hsplit => ?_, rfl, rfl, rfl, rfl⟩
  rw [State.complete_res, hv]
  exact ⟨Nat.mod_mod_of_dvd _ (hsplit ▸ Dvd.intro_left _ rfl), Nat.mod_mod_of_dvd _ (hsplit ▸ Dvd.intro _ rfl)⟩

/-! ### The even path -/

/-- The first half of EVEN_PATH: the split of `n` goes to the hidden registers, then the power modulo the odd part (R186). -/
def evenOddPart (a e n inv : Word) (w : Work) : Word × Work :=
  if (oddPart n).toNat < 2 then (0, { w with k := BitVec.ofNat 64 (ctz n), m := oddPart n })
  else oddCore a e (oddPart n) inv { w with k := BitVec.ofNat 64 (ctz n), m := oddPart n }

/-- The second half of EVEN_PATH: the power modulo the power of two (R186). -/
def evenTwoPart (a e n : Word) (w : Work) : Word × Work :=
  powCore (BitVec.ofNat 64 (a.toNat % (BitVec.ofNat 64 (2 ^ ctz n)).toNat)) (evenExponent a e (ctz n))
    (BitVec.ofNat 64 (2 ^ ctz n)) w

/-- After its first half EVEN_PATH writes `w.r1`, `w.r2` and the registers of the loop only (R186). -/
theorem evenPath_frame (a e n inv : Word) (w : Work) : ∃ w' r q f i, (evenPath a e n inv w).2 =
    { (evenOddPart a e n inv w).2 with
      r1 := (evenOddPart a e n inv w).1, r2 := (evenTwoPart a e n w').1, res := r, sq := q, f := f, iter := i } := by
  obtain ⟨w', hw', hpath⟩ : ∃ w', w' = { (evenOddPart a e n inv w).2 with r1 := (evenOddPart a e n inv w).1 } ∧
      (evenPath a e n inv w).2 = { (evenTwoPart a e n w').2 with r2 := (evenTwoPart a e n w').1 } := ⟨_, rfl, rfl⟩
  obtain ⟨r, q, f, i, hloop⟩ : ∃ r q f i,
      (evenTwoPart a e n w').2 = { w' with res := r, sq := q, f := f, iter := i } := powCore_frame _ _ _ w'
  exact ⟨w', r, q, f, i, by rw [hpath, hloop, hw']⟩

/-- The first half leaves the split of `n` in `w.k` and `w.m` (R186). -/
theorem evenOddPart_split (a e n inv : Word) (w : Work) :
    (evenOddPart a e n inv w).2.k = BitVec.ofNat 64 (ctz n) ∧ (evenOddPart a e n inv w).2.m = oddPart n := by
  unfold evenOddPart
  split
  · exact ⟨rfl, rfl⟩
  · obtain ⟨r, q, f, i, c, x, h⟩ :=
      oddCore_frame a e (oddPart n) inv { w with k := BitVec.ofNat 64 (ctz n), m := oddPart n }
    rw [h]
    exact ⟨rfl, rfl⟩

/-- The first half leaves the context of an odd part above 1 (R180, R186). -/
theorem evenOddPart_context (a e : Word) {n : Word} (inv : Word) (w : Work) (h : 2 ≤ (oddPart n).toNat) :
    (evenOddPart a e n inv w).2.ctxR = rModN (oddPart n) ∧ (evenOddPart a e n inv w).2.ctxInv = inv := by
  rw [evenOddPart, if_neg (Nat.not_lt.mpr h)]
  exact oddCore_context a e (oddPart n) inv _

/-- The first half computes `a^e` modulo the odd part, 0 where that is 1 (R181, R186). -/
theorem evenOddPart_toNat {a e n inv : Word} {w : Work} (hn : 0 < n.toNat) (hinv : Config.InvContract (oddPart n) inv) :
    (evenOddPart a e n inv w).1.toNat = a.toNat ^ e.toNat % (oddPart n).toNat := by
  obtain ⟨-, hodd, -⟩ := ctz_spec hn
  unfold evenOddPart
  split
  · have h1 : (oddPart n).toNat = 1 := by omega
    rw [h1, Nat.mod_one]
    rfl
  · exact oddCore_eq hodd (by omega) hinv

/-- `2^k` fits a register for every `k` of a split (R192). -/
theorem toNat_two_pow {k : Nat} (hk : k ≤ 63) : (BitVec.ofNat 64 (2 ^ k)).toNat = 2 ^ k := by
  rw [BitVec.toNat_ofNat, Nat.mod_eq_of_lt (Nat.pow_lt_pow_right (by norm_num) (by omega))]

/-- The exponent of the second half gives the same power of `a` modulo `2^k` (R190). -/
theorem pow_evenExponent_modEq {a : Word} {k : Nat} (hk : 1 ≤ k) (e : Word) :
    a.toNat ^ (evenExponent a e k).toNat ≡ a.toNat ^ e.toNat [MOD 2 ^ k] := by
  unfold evenExponent
  split
  · next ha =>
    have hlt : e.toNat % 2 ^ (k - 1) < 2 ^ 64 := (Nat.mod_le _ _).trans_lt e.isLt
    rw [BitVec.toNat_ofNat, Nat.mod_eq_of_lt hlt]
    exact odd_pow_mod_two_pow ha hk e.toNat
  · rfl

/-- The second half computes `a^e` modulo the power of two (R163, R190). -/
theorem evenTwoPart_toNat {a e n : Word} {w : Work} (hn : 0 < n.toNat) (heven : n.toNat % 2 = 0) :
    (evenTwoPart a e n w).1.toNat = a.toNat ^ e.toNat % 2 ^ ctz n := by
  obtain ⟨-, -, hk⟩ := ctz_spec hn
  have hk1 := ctz_pos_of_even heven
  have hp := toNat_two_pow hk
  have h2 : 2 ≤ 2 ^ ctz n := Nat.le_self_pow (by omega) 2
  rw [evenTwoPart, powCore_eq (by rw [hp]; exact h2), toNat_ofNat_mod _ _ (by rw [hp]; omega), hp]
  exact ((Nat.mod_modEq _ _).pow _).trans (pow_evenExponent_modEq hk1 e)

/-- Settles O54: the halves leave the split, the powers and the context, and RES is the power modulo `N`, so it is `r1`
modulo `m`, with its quotient by `m` below `2^k`. -/
theorem evenPathInternals : Obligations.EvenPathInternals := by
  intro s h heven h2 ha
  have hn : 0 < s.n.toNat := by omega
  obtain ⟨inv, hans, hinv⟩ := h _ (inverseArg_eq_some_iff.mpr (.inr ⟨⟨rfl, heven, h2, ha⟩, rfl⟩))
  obtain ⟨hsplit, hodd, hk63⟩ := ctz_spec hn
  obtain ⟨hk, hm⟩ := evenOddPart_split s.a s.e s.n inv s.w
  obtain ⟨w', r, q, f, i, hw⟩ := evenPath_frame s.a s.e s.n inv s.w
  have hkn : (BitVec.ofNat 64 (ctz s.n)).toNat = ctz s.n := by rw [BitVec.toNat_ofNat]; omega
  have hres := evenPath_eq (a := s.a) (e := s.e) (w := s.w) h2 heven hinv
  have hr1 := evenOddPart_toNat (a := s.a) (e := s.e) (w := s.w) hn hinv
  have hlt : (evenPath s.a s.e s.n inv s.w).1.toNat < s.n.toNat := hres ▸ Nat.mod_lt _ hn
  refine ⟨_, exec_powMod_of_even heven h2 ha hans, ?_⟩
  simp only [State.complete_w, State.complete_res, hw, hk, hm, hkn]
  refine ⟨hsplit, hodd, ctz_pos_of_even heven, hk63, hr1, evenTwoPart_toNat hn heven,
    ⟨(evenPath s.a s.e s.n inv s.w).1.toNat / (oddPart s.n).toNat, ?_, ?_⟩, Nat.le_sub_one_of_lt hlt, fun h3 => ?_⟩
  · exact Nat.div_lt_of_lt_mul (by rwa [Nat.mul_comm, ← hsplit])
  · have hdvd : (oddPart s.n).toNat ∣ s.n.toNat := ⟨_, hsplit.trans (Nat.mul_comm _ _)⟩
    rw [hr1, ← Nat.mod_mod_of_dvd _ hdvd, ← hres, Nat.mod_add_div']
  · obtain ⟨hctxR, hctxInv⟩ := evenOddPart_context s.a s.e inv s.w (Nat.le_of_succ_le h3)
    rw [hctxR, hctxInv, rModN_toNat _ (by omega)]
    exact ⟨rfl, hans⟩

/-! ### From the CMD write to DONE -/

/-- While idle, the write of a command's word to CMD accepts the command (R215). -/
theorem State.writeReg_cmd_encode {s : State} (hi : s.phase = .idle) (i : Instr) :
    s.writeReg .cmd (ofLanes (encode i)) = s.accept (encodeOp i) := by
  rw [State.writeReg_idle hi, encode, ofLanes_toLanes]
  simp only [State.storeReg, State.issue, decodeWord_eq_ok.mpr rfl, opField_encodeWord]

/-- The write of a command's word to CMD that is the next event is its acceptance while idle (R215). -/
theorem step_accept {s : State} {m : Nat} {i : Instr} {rest : List Input} (hi : s.phase = .idle)
    (hr : s.resetHeld = false) (h : s.inputs = .bus (writeOf m 0x00 (encode i)) :: rest) :
    step s = .next (({ s with inputs := rest }.accept (encodeOp i)).respond (writeOf m 0x00 (encode i)) .normal) := by
  rw [← State.writeReg_cmd_encode (s := { s with inputs := rest }) hi]
  exact step_write hr (by norm_num) (by norm_num) (by norm_num) (toLanes_length _) h

/-- A waiting engine's turn on the command in flight is `exec` of it (R216). -/
theorem step_engine {s : State} {i : Instr} {rest : List Input} (hf : s.inFlight i) (h : s.inputs = .engine :: rest) :
    step s = exec i { s with inputs := rest } := by
  rw [step_cons h]
  exact engineTurn_inFlight (s := { s with inputs := rest }) hf

/-- A waiting engine's turn on a command in flight that needs an inverse sends the request (R222). -/
theorem step_request {s : State} {i : Instr} {q : Word} {rest : List Input} (hf : s.inFlight i)
    (hq : inverseArg i s.a s.n = some q) (ha : s.invAnswer = none) (hp : s.invPending = false)
    (h : s.inputs = .engine :: rest) :
    step s = .next { s with invPending := true, invArg := q, invReqs := s.invReqs + 1, inputs := rest } :=
  (step_engine hf h).trans (exec_request (s := { s with inputs := rest }) hq ha hp)

/-- The answer to the outstanding request is taken (R222). -/
theorem step_answer {s : State} {v : Word} {rest : List Input} (hp : s.invPending = true)
    (h : s.inputs = .invRsp s.invReqs v :: rest) :
    step s = .next { s with invPending := false, invAnswer := some v, inputs := rest } := by
  rw [step_cons h]
  simp [onInput, State.inverseResponse, hp]

/-- A command in flight that needs an inverse, with nothing on the port yet: a turn sends the request, the answer is taken,
and the next turn is `exec` with the answer held (R216, R222). -/
theorem run_request_answer_engine {s t : State} {i : Instr} {q v : Word} {rest : List Input} (hf : s.inFlight i)
    (hq : inverseArg i s.a s.n = some q) (ha : s.invAnswer = none) (hp : s.invPending = false)
    (hin : s.inputs = .engine :: .invRsp (s.invReqs + 1) v :: .engine :: rest)
    (hexec : exec i { s with
      invPending := false, invArg := q, invReqs := s.invReqs + 1, invAnswer := some v, inputs := rest } = .next t) :
    Host.Core.run Sys2Proof.core 3 s = .next t := by
  have hrequest := step_request hf hq ha hp hin
  have hanswer := step_answer (s := { s with
      invPending := true, invArg := q, invReqs := s.invReqs + 1
      inputs := .invRsp (s.invReqs + 1) v :: .engine :: rest }) rfl rfl
  have hturn := step_engine (s := { s with
      invPending := false, invArg := q, invReqs := s.invReqs + 1, invAnswer := some v
      inputs := .engine :: rest }) hf rfl
  rw [run_ok hrequest, run_ok hanswer, run_ok (hturn.trans hexec)]
  rfl

/-- Settles O49: the acceptance leaves a command in flight with nothing on the port, and the last turn is that of the same
rule on the same operands as in the state given, with the answer held. -/
theorem powModRunsToDone : Obligations.PowModRunsToDone := by
  intro s i m v rest hinv hidle hr ha hi hin
  have hmod : i = .powModOdd ∨ i = .powMod := hi.symm.imp And.left And.left
  obtain ⟨q, hq⟩ : ∃ q, inverseArg i s.a s.n = some q := by
    rcases hi with ⟨rfl, h2⟩ | ⟨rfl, h3, hodd⟩
    · exact exists_inverseArg_powMod h2 ha
    · exact ⟨_, inverseArg_eq_some_iff.mpr (.inl ⟨⟨.inl rfl, hodd, h3, ha⟩, rfl⟩)⟩
  obtain ⟨x, w, hrule⟩ : ∃ x w, ruleOf i { s with invAnswer := some v } = .value x none w :=
    (ruleOf_powMod_cases hmod _).resolve_right fun h => nomatch h.1
  have hexec {u : State} (hu : ruleOf i u = ruleOf i { s with invAnswer := some v }) :
      exec i u = .next (u.complete x none w) := by
    rw [exec_eq_conclude, hu, hrule]
    rfl
  have hrun := (run_ok (step_accept hidle hr hin)).trans (run_request_answer_engine ⟨rfl, decodeOp_encodeOp i⟩ hq
    (hinv.invAnswer_of_idle hidle) (hinv.invPending_of_idle hidle) rfl
    (hexec (ruleOf_powMod_congr hmod rfl rfl rfl rfl rfl)))
  refine ⟨_, _, hrun, hexec rfl, rfl, fun hc => ?_,
    rfl, rfl, rfl, rfl, rfl, rfl, rfl, rfl, rfl, rfl, rfl, rfl, rfl, rfl⟩
  have hanswered : State.InverseAnswered { s with invAnswer := some v } i := fun q hq => ⟨v, rfl, hc q hq⟩
  obtain ⟨x', w', e, hx'⟩ := hanswered.exec hq
  have hres : x = x' := congrArg State.res (Host.Outcome.next.inj ((hexec rfl).symm.trans e))
  exact hres ▸ hx'

end Sys2Proof.Machine
end

section
/-! SUPPORT. Proofs of the statements about the command life cycle, the inverse port and the sentinel results
(spec/60_exceptions.md): acceptance and refusal, completion, the wait for an answer that does not come. -/

namespace Sys2Proof.Machine

open Sys2Proof

/-! ### Acceptance and refusal of a command word -/

/-- OP is `bits[3:0]` of the word (R80). -/
theorem opField_eq_extractLsb' (v : Word) : opField v = v.extractLsb' 0 4 := by
  simp [opField, BitVec.extractLsb']

/-- A legal word is accepted (R215). -/
theorem State.issue_of_legal (s : State) {v : Word} (h : wordLegal v = true) : s.issue v = s.accept (opField v) := by
  rcases s.issue_cases v with ⟨-, e, -⟩ | ⟨hn, -⟩
  · exact e
  · rw [h] at hn; cases hn

/-- An illegal word sets ILLEGAL (R214). -/
theorem State.issue_of_illegal (s : State) {v : Word} (h : wordLegal v = false) :
    s.issue v = { s with illegal := true } := by
  rcases s.issue_cases v with ⟨hl, -⟩ | ⟨-, e⟩
  · rw [h] at hl; cases hl
  · exact e

/-- A write to CMD that is the next event, while idle, issues its word (R214, R215). -/
theorem step_issue {s : State} {m : Nat} {lanes : List Byte} {rest : List Input} (hr : s.resetHeld = false)
    (hi : s.phase = .idle) (h8 : lanes.length = 8) (h : s.inputs = .bus (writeOf m 0x00 lanes) :: rest) :
    step s = .next ((State.issue { s with inputs := rest } (ofLanes lanes)).respond (writeOf m 0x00 lanes) .normal) := by
  rw [step_write hr (by norm_num) (by norm_num) (by norm_num) h8 h, State.writeReg_idle (by exact hi)]
  rfl

/-- Settles O17: the word is legal, so it is accepted with its bits 3:0 as the opcode. -/
theorem legalCommandAccepted : Obligations.LegalCommandAccepted := by
  intro s m lanes rest hr hi h8 hrsv hlo hhi hin
  rw [step_issue hr hi h8 hin, State.issue_of_legal _ ((wordLegal_iff _).mpr ⟨hrsv, hlo, hhi⟩), opField_eq_extractLsb']
  rfl

/-- Settles O18: the word is not legal, so it sets ILLEGAL. -/
theorem illegalCommandRefused : Obligations.IllegalCommandRefused := by
  intro s m lanes rest hr hi h8 hbad hin
  have hw : wordLegal (ofLanes lanes) = false := Bool.eq_false_iff.mpr fun h => hbad ((wordLegal_iff _).mp h)
  rw [step_issue hr hi h8 hin, State.issue_of_illegal _ hw]
  rfl

/-! ### The engine's turn as a step -/

/-- With no event waiting, the step of a machine with a command in flight is `exec` of it (R216, log entry 2). -/
theorem step_nil_inFlight {s : State} {i : Instr} (hf : s.inFlight i) (h : s.inputs = []) : step s = exec i s :=
  (step_nil h).trans (engineTurn_inFlight hf)

/-- Settles O24: the bytes are the command's encoding, whose write is the acceptance; the turns are `step_nil_inFlight`
and `step_engine`. -/
theorem stepRunsDecodedCommand : Obligations.StepRunsDecodedCommand := by
  refine ⟨fun s bs i m rest hd hr hi hin => ?_, fun s i hf => ⟨step_nil_inFlight hf, fun rest => step_engine hf⟩⟩
  obtain rfl : bs = encode i := (decodeExactlyEncodings bs i).mp hd
  exact ⟨_, step_accept hi hr hin, ⟨rfl, decodeOp_encodeOp i⟩, rfl⟩

/-- Settles O25: an idle engine's turn changes nothing, with no event waiting or as the next event. -/
theorem idleKeepsEverything : Obligations.IdleKeepsEverything := by
  refine fun s hi => ⟨fun h => (step_nil h).trans (engineTurn_idle hi), fun rest h => ?_⟩
  rw [step_cons h]
  exact engineTurn_idle (s := { s with inputs := rest }) hi

/-! ### Completion -/

/-- A command whose request, if it makes one, has its answer needs no further answer (R183, R216). -/
theorem State.ready_of_answered {s : State} {i : Instr}
    (h : ∀ m, inverseArg i s.a s.n = some m → s.invAnswer.isSome = true) :
    inverseArg i s.a s.n = none ∨ s.invAnswer.isSome = true := by
  cases hm : inverseArg i s.a s.n with
  | none => exact .inl rfl
  | some m => exact .inr (h m hm)

/-- Settles O26: the step is the command's turn, and the turn is a completion. -/
theorem commandInFlightCompletes : Obligations.CommandInFlightCompletes := by
  intro s i hf hin hans
  obtain ⟨v, fill, w, e⟩ := exec_eq_complete (State.ready_of_answered hans)
  exact ⟨_, (step_nil_inFlight hf hin).trans e, rfl, rfl, rfl, rfl⟩

/-- The turn on a rule's outcome neither looks at nor writes COLLISION, the last response and the events to come. -/
theorem State.conclude_border (s : State) (c : Bool) (p : Option Reply) (evs : List Input) (o : RuleOutcome) :
    State.conclude { s with collision := c, reply := p, inputs := evs } o =
      { s.conclude o with collision := c, reply := p, inputs := evs } := by
  cases o with
  | value v fill w => rfl
  | needsInverse m =>
    simp only [State.conclude, State.awaitInverse]
    split <;> rfl

/-- No command looks at or writes COLLISION, the last response and the events to come (R216). -/
theorem exec_border {i : Instr} {s t : State} (h : exec i s = .next t) (c : Bool) (p : Option Reply)
    (evs : List Input) : exec i { s with collision := c, reply := p, inputs := evs } =
      .next { t with collision := c, reply := p, inputs := evs } := by
  have hrule : ruleOf i { s with collision := c, reply := p, inputs := evs } = ruleOf i s := by cases i <;> rfl
  rw [exec_eq_conclude] at h
  cases h
  rw [exec_eq_conclude, hrule, State.conclude_border]

/-- A waiting engine's turn that completes the command in flight leaves the events after it (R216). -/
theorem step_engine_complete {s : State} {i : Instr} {v : Word} {fill : Option Word} {w : Work} (hf : s.inFlight i)
    (e : exec i s = .next (s.complete v fill w)) (rest : List Input) :
    step { s with inputs := .engine :: rest } = .next { s.complete v fill w with inputs := rest } :=
  (step_engine (s := { s with inputs := .engine :: rest }) hf rfl).trans (exec_border e s.collision s.reply rest)

/-- A write to N while BUSY is 1 is dropped (R243). -/
theorem State.access_n_busy {s : State} (hb : s.phase = .busy) (m : Nat) {lanes : List Byte} (h8 : lanes.length = 8) :
    s.access (writeOf m 0x28 lanes) = { s with collision := true, reply := some ⟨m, .normal⟩ } := by
  rw [State.access_write (by norm_num) (by norm_num) (by norm_num) h8, State.writeReg_busy hb rfl]
  rfl

/-- A write to N while BUSY is 0 is performed, and leaves RMODN (R31, R36). -/
theorem State.access_n_idle {s : State} (hi : s.phase = .idle) (m : Nat) {lanes : List Byte} (h8 : lanes.length = 8) :
    s.access (writeOf m 0x28 lanes) = { s with n := ofLanes lanes, reply := some ⟨m, .normal⟩ } := by
  rw [State.access_write (by norm_num) (by norm_num) (by norm_num) h8, State.writeReg_idle hi]
  rfl

/-- A write to N before the completion of the command in flight is dropped, and the completion is the same (R217, R243). -/
theorem run_write_complete {s : State} {i : Instr} {v : Word} {fill : Option Word} {w : Work} {lanes : List Byte}
    (hf : s.inFlight i) (e : exec i s = .next (s.complete v fill w)) (hr : s.resetHeld = false) (m : Nat)
    (h8 : lanes.length = 8) (rest : List Input) :
    Host.Core.run Sys2Proof.core 2 { s with inputs := .bus (writeOf m 0x28 lanes) :: .engine :: rest } =
      .next { s.complete v fill w with collision := true, reply := some ⟨m, .normal⟩, inputs := rest } := by
  have hwrite := step_bus_cons hr (writeOf m 0x28 lanes) (.engine :: rest)
  rw [State.access_n_busy hf.1 m h8] at hwrite
  have hturn := step_engine_complete (s := { s with collision := true, reply := some ⟨m, .normal⟩ }) hf
    (exec_border e true (some ⟨m, .normal⟩) s.inputs) rest
  exact (run_ok hwrite).trans (run_ok hturn)

/-- A write to N after the completion of the command in flight is performed (R216, R217). -/
theorem run_complete_write {s : State} {i : Instr} {v : Word} {fill : Option Word} {w : Work} {lanes : List Byte}
    (hf : s.inFlight i) (e : exec i s = .next (s.complete v fill w)) (hr : s.resetHeld = false) (m : Nat)
    (h8 : lanes.length = 8) (rest : List Input) :
    Host.Core.run Sys2Proof.core 2 { s with inputs := .engine :: .bus (writeOf m 0x28 lanes) :: rest } =
      .next { s.complete v fill w with n := ofLanes lanes, reply := some ⟨m, .normal⟩, inputs := rest } := by
  have hwrite := step_bus_cons (s := s.complete v fill w) hr (writeOf m 0x28 lanes) rest
  rw [State.access_n_idle rfl m h8] at hwrite
  exact (run_ok (step_engine_complete hf e (.bus (writeOf m 0x28 lanes) :: rest))).trans (run_ok hwrite)

/-- Settles O33: both orders end in the completion of the same command on the same operands. -/
theorem completionRacesWrite : Obligations.CompletionRacesWrite := by
  intro s i m lanes rest hf hr h8 hans
  obtain ⟨v, fill, w, e⟩ := exec_eq_complete (State.ready_of_answered hans)
  exact ⟨_, _, run_write_complete hf e hr m h8 rest, run_complete_write hf e hr m h8 rest,
    rfl, rfl, rfl, rfl, rfl, rfl, rfl, rfl⟩

/-! ### The inverse port -/

/-- A response with no request outstanding, or to another request, is ignored (R222, R240). -/
theorem State.inverseResponse_ignored {s : State} {req : Nat} (h : s.invPending = false ∨ req ≠ s.invReqs) (v : Word) :
    s.inverseResponse req v = s := by
  rcases s.inverseResponse_cases req v with ⟨hp, hreq, -⟩ | ⟨-, e⟩
  · exact absurd hreq (h.resolve_left (by simp [hp]))
  · exact e

/-- Settles O58: the answer awaited by `step_answer`, any other by `State.inverseResponse_ignored`. -/
theorem inverseResponseTaken : Obligations.InverseResponseTaken := by
  refine fun s req v rest hin => ⟨fun hp hreq => step_answer hp (hreq ▸ hin), fun h => ?_⟩
  rw [step_cons hin, onInput, State.inverseResponse_ignored (by exact h)]

/-- An outstanding request is for what the command in flight asks for, and has no answer yet (R183, R222). -/
theorem State.Inv.request {s : State} (h : s.Inv) (hp : s.invPending = true) :
    ∃ i, s.inFlight i ∧ inverseArg i s.a s.n = some s.invArg ∧ s.invAnswer = none := by
  obtain ⟨⟨hb, hasks⟩, ha⟩ := h.portOk hp
  obtain ⟨i, ho, hm⟩ := Option.bind_eq_some_iff.mp hasks
  exact ⟨i, ⟨hb, ho⟩, hm, ha⟩

/-- A step that changes the count of requests is the engine's turn that sends one for the command in flight (R222). -/
theorem step_sends {s t : State} (h : step s = .next t) (hne : t.invReqs ≠ s.invReqs) :
    ∃ i m rest, s.inFlight i ∧ s.invPending = false ∧ inverseArg i s.a s.n = some m ∧
      t = { s with invPending := true, invArg := m, invReqs := s.invReqs + 1, inputs := rest } := by
  rcases step_cases h with ⟨rest, _, rfl⟩ | ⟨rest, _, rfl⟩ | ⟨req, v, rest, _, rfl⟩ | ⟨acc, rest, _, _, rfl⟩ |
    ⟨rest, _, ⟨_, rfl⟩ | ⟨i, hf, e⟩⟩
  · exact absurd rfl hne
  · exact absurd rfl hne
  · obtain ⟨p, x, e⟩ := State.inverseResponse_frame { s with inputs := rest } req v
    rw [e] at hne
    exact absurd rfl hne
  · obtain ⟨-, hreqs, -⟩ := State.access_port { s with inputs := rest } acc
    exact absurd hreqs hne
  · exact absurd rfl hne
  · rcases exec_next_cases e with ⟨v, fill, w, rfl, _⟩ | ⟨m, rfl, hm, _⟩
    · exact absurd rfl hne
    · rcases State.awaitInverse_cases { s with inputs := rest } m with ⟨_, e'⟩ | ⟨hp, e'⟩
      · rw [e'] at hne
        exact absurd rfl hne
      · exact ⟨i, m, rest, hf, hp, hm, e'⟩

/-- Settles O55: what a command asks for is odd, and the invariant and the sending turn both tie the port to it. -/
theorem requestsAreOddAndSingle : Obligations.RequestsAreOddAndSingle := by
  refine ⟨fun s hinv hp => ?_, fun s t h hne => ?_⟩
  · obtain ⟨i, -, hm, -⟩ := hinv.request hp
    exact inverseArg_odd hm
  · obtain ⟨i, m, rest, ⟨hb, -⟩, hp, hm, rfl⟩ := step_sends h hne
    exact ⟨hb, hp, rfl, rfl, inverseArg_odd hm⟩

/-! ### The wait for an answer that does not come -/

/-- With a request outstanding, the engine's turn changes nothing (R222, R247). -/
theorem State.Inv.engineTurn_waits {s : State} (h : s.Inv) (hp : s.invPending = true) : engineTurn s = .next s := by
  obtain ⟨i, hf, hm, ha⟩ := h.request hp
  exact (engineTurn_inFlight hf).trans (exec_waits hm ha hp)

/-- With a request outstanding, every event but reset and the answer awaited leaves all but DONE, the error bits and the
last response (R223, R243). -/
theorem State.Inv.step_waits {s : State} {ev : Input} {rest : List Input} (h : s.Inv) (hp : s.invPending = true)
    (hreset : ev ≠ .resetAssert) (hans : ∀ v, ev ≠ .invRsp s.invReqs v) (hin : s.inputs = ev :: rest) :
    ∃ d i c r, step s = .next { s with done := d, illegal := i, collision := c, reply := r, inputs := rest } := by
  obtain ⟨_, ⟨hb, -⟩, -, -⟩ := h.request hp
  obtain ⟨-, -, hr⟩ := h.busyOk hb
  cases ev with
  | bus acc =>
    obtain ⟨d, i, c, r, e⟩ := State.access_busy (s := { s with inputs := rest }) hb acc
    exact ⟨d, i, c, r, by rw [step_bus hr hin, e]⟩
  | engine =>
    rw [step_cons hin]
    exact ⟨_, _, _, _, (h.setInputs rest).engineTurn_waits hp⟩
  | invRsp req v =>
    have hreq : req ≠ s.invReqs := fun hreq => hans v (by rw [hreq])
    exact ⟨_, _, _, _, (inverseResponseTaken s req v rest hin).2 (.inr hreq)⟩
  | resetAssert => exact absurd rfl hreset
  | resetRelease =>
    rw [step_cons hin, onInput, State.releaseReset]
    exact ⟨s.done, s.illegal, s.collision, s.reply, by rw [← hr]⟩

/-- With a request outstanding, any number of such events leaves all but DONE, the error bits and the last response
(R223, R247). -/
theorem State.Inv.run_waits (evs rest : List Input) {s : State} (h : s.Inv) (hp : s.invPending = true)
    (hevs : ∀ ev ∈ evs, ev ≠ .resetAssert ∧ ∀ v, ev ≠ .invRsp s.invReqs v) (hin : s.inputs = evs ++ rest) :
    ∃ d i c r t, t = { s with done := d, illegal := i, collision := c, reply := r, inputs := rest } ∧ t.Inv ∧
      Host.Core.run Sys2Proof.core evs.length s = .next t := by
  induction evs generalizing s with
  | nil => exact ⟨s.done, s.illegal, s.collision, s.reply, s, by rw [← show s.inputs = rest from hin], h, rfl⟩
  | cons ev evs ih =>
    obtain ⟨⟨hreset, hans⟩, hrest⟩ := List.forall_mem_cons.mp hevs
    obtain ⟨d, i, c, r, hstep⟩ := h.step_waits hp hreset hans hin
    obtain ⟨d', i', c', r', t, ht, htinv, hrun⟩ := ih (stepKeepsInvariant _ _ h hstep) hp hrest rfl
    exact ⟨d', i', c', r', t, ht, htinv, (run_ok hstep).trans hrun⟩

/-- Settles O56: the events leave the command in flight and its request, and the invariant holds after them, so the engine
still waits. -/
theorem unansweredCommandHangs : Obligations.UnansweredCommandHangs := by
  intro s evs rest hinv hp hevs hin
  obtain ⟨_, ⟨hb, -⟩, -, -⟩ := hinv.request hp
  obtain ⟨d, i, c, r, t, rfl, htinv, hrun⟩ := hinv.run_waits evs rest hp hevs hin
  exact ⟨_, hrun, hb, rfl, hp, rfl, rfl, rfl, rfl, rfl, rfl, rfl, rfl,
    fun hnil => (step_nil hnil).trans (htinv.engineTurn_waits hp)⟩

/-! ### The sentinel results -/

/-- S1: a modulus too small for the command gives 0 (R211). -/
theorem exec_of_tooSmall {i : Instr} {s : State} (h : (i = .toMont ∧ s.n.toNat = 0) ∨ (i ≠ .toMont ∧ s.n.toNat < 2)) :
    exec i s = .next (s.complete 0 none s.w) := by
  have h2 : s.n.toNat < 2 := by omega
  cases i with
  | toMont =>
    obtain ⟨-, h0⟩ := h.resolve_right fun hne => hne.1 rfl
    exact exec_toMont_of_even (by rw [h0])
  | fromMont => exact exec_fromMont_of_guard (.inl h2)
  | montMul => exact exec_montMul_of_guard (.inl h2)
  | montPow => exact exec_montPow_of_guard (.inl h2)
  | genPow => exact exec_genPow_of_tooSmall h2
  | powModOdd => exact exec_powModOdd_of_guard (.inl h2)
  | powMod => exact exec_powMod_of_tooSmall h2

/-- S2: an even modulus gives 0 in the commands that need an odd one (R211). -/
theorem exec_of_even {i : Instr} {s : State} (h : s.n.toNat % 2 = 0) (hgen : i ≠ .genPow) (hpow : i ≠ .powMod) :
    exec i s = .next (s.complete 0 none s.w) := by
  cases i with
  | toMont => exact exec_toMont_of_even h
  | fromMont => exact exec_fromMont_of_guard (.inr h)
  | montMul => exact exec_montMul_of_guard (.inr h)
  | montPow => exact exec_montPow_of_guard (.inr h)
  | genPow => exact absurd rfl hgen
  | powModOdd => exact exec_powModOdd_of_guard (.inr h)
  | powMod => exact absurd rfl hpow

/-- S3: past the other two conditions, `A < 2` gives A in the exponentiations of a plain base (R211, R212). -/
theorem exec_of_fixedPoint {i : Instr} {s : State} (ha : s.a.toNat < 2) (h2 : 2 ≤ s.n.toNat)
    (hi : i = .genPow ∨ i = .powMod ∨ (i = .powModOdd ∧ s.n.toNat % 2 = 1)) :
    exec i s = .next (s.complete s.a none s.w) := by
  rcases hi with rfl | rfl | ⟨rfl, hodd⟩
  · exact exec_genPow_of_fixedPoint h2 ha
  · exact exec_powMod_of_fixedPoint h2 ha
  · rw [← exec_powMod_eq_powModOdd hodd]
    exact exec_powMod_of_fixedPoint h2 ha

/-- Settles O57: each condition ends in a completion that fills no RMODN and keeps the working registers. -/
theorem sentinelResults : Obligations.SentinelResults := by
  refine fun s i => ⟨fun h => ?_, fun heven _ hgen hpow => ?_, fun ha h2 hi => ?_⟩
  · exact ⟨_, exec_of_tooSmall h, rfl, rfl, rfl, rfl, rfl, rfl, rfl⟩
  · exact ⟨_, exec_of_even heven hgen hpow, rfl, rfl, rfl, rfl, rfl, rfl, rfl⟩
  · exact ⟨_, exec_of_fixedPoint ha h2 hi, rfl, rfl, rfl, rfl, rfl, rfl, rfl⟩

end Sys2Proof.Machine
end

section
/-! SUPPORT. Proofs of the statements about reset and hazards (spec/70_reset_and_hazards.md): the reset input, what becomes of
a command and of a request that a reset abandons, and what a busy machine keeps frozen. -/

namespace Sys2Proof.Machine

open Sys2Proof

/-! ### The reset input -/

/-- Settles O7: the assertion is the next event, and `State.assertReset` says what it leaves. -/
theorem resetAssertion : Obligations.ResetAssertion := fun _ _ hin => step_cons hin

/-- Settles O60: the release is the next event, and it writes the level only. -/
theorem resetRelease : Obligations.ResetRelease := fun _ _ hin => step_cons hin

/-- Settles O6: a bus access is refused by the level alone, whatever it is. -/
theorem busDuringResetRefused : Obligations.BusDuringResetRefused := by
  intro s acc rest hr hin
  rw [step_cons hin]
  exact if_pos hr

/-- Settles O2: the reset state is idle with reset released, so the write of a command's word is its acceptance. -/
theorem resetAcceptsCommand : Obligations.ResetAcceptsCommand :=
  ⟨rfl, fun i m => step_accept (m := m) (i := i) rfl rfl rfl⟩

/-! ### The command that a reset abandons -/

/-- An idle machine that waits for no answer lets an engine's turn, a release of reset or an answer pass: of its state only
the level of the reset input can change (R222, R228, R240). -/
theorem step_level {s : State} {ev : Input} {rest : List Input} (hi : s.phase = .idle) (hp : s.invPending = false)
    (hev : ev = .engine ∨ ev = .resetRelease ∨ ∃ k v, ev = .invRsp k v) (hin : s.inputs = ev :: rest) :
    ∃ level, step s = .next { s with resetHeld := level, inputs := rest } := by
  rcases hev with rfl | rfl | ⟨k, v, rfl⟩
  · exact ⟨s.resetHeld, (step_cons hin).trans (engineTurn_idle hi)⟩
  · exact ⟨false, resetRelease s rest hin⟩
  · exact ⟨s.resetHeld, (inverseResponseTaken s k v rest hin).2 (.inl hp)⟩

/-- An idle machine that waits for no answer lets any number of such events pass (R240). -/
theorem run_level (evs rest : List Input) {s : State} (hi : s.phase = .idle) (hp : s.invPending = false)
    (hevs : ∀ ev ∈ evs, ev = .engine ∨ ev = .resetRelease ∨ ∃ k v, ev = .invRsp k v) (hin : s.inputs = evs ++ rest) :
    ∃ level, Host.Core.run Sys2Proof.core evs.length s = .next { s with resetHeld := level, inputs := rest } := by
  induction evs generalizing s with
  | nil => exact ⟨s.resetHeld, by rw [← show s.inputs = rest from hin]; rfl⟩
  | cons ev evs ih =>
    obtain ⟨hev, hrest⟩ := List.forall_mem_cons.mp hevs
    obtain ⟨level, hstep⟩ := step_level hi hp hev hin
    obtain ⟨level', hrun⟩ := ih (s := { s with resetHeld := level, inputs := evs ++ rest }) hi hp hrest rfl
    exact ⟨level', (run_ok hstep).trans hrun⟩

/-- Settles O8: the assertion leaves the machine idle with nothing on the port, and the events move the level only. -/
theorem abandonedCommandNeverCompletes : Obligations.AbandonedCommandNeverCompletes := by
  intro s evs rest hevs hin
  have hstep := resetAssertion s (evs ++ rest) hin
  obtain ⟨level, hrun⟩ := run_level evs rest (s := { State.reset with
    resetHeld := true, invReqs := s.invReqs, inputs := evs ++ rest }) rfl rfl hevs rfl
  exact ⟨_, (run_ok hstep).trans hrun, rfl, rfl, rfl, rfl, rfl, rfl⟩

/-! ### The request that a reset abandons -/

/-- Request `req` was sent and is not the outstanding one: no answer to it is awaited (R222, log entry 8). -/
def State.NotAwaited (req : Nat) (s : State) : Prop :=
  req ≤ s.invReqs ∧ (s.invPending = true → req ≠ s.invReqs)

/-- What every step keeps holds after every run that goes on. -/
theorem run_keeps {P : State → Prop} (hP : ∀ s t, step s = .next t → P s → P t) {k : Nat} {s t : State}
    (hrun : Host.Core.run Sys2Proof.core k s = .next t) (hs : P s) : P t := by
  induction k generalizing s with
  | zero => cases hrun; exact hs
  | succ k ih =>
    obtain ⟨u, hstep, hrest⟩ := run_inv hrun
    exact ih hrest (hP s u hstep hs)

/-- A step that leaves the count of requests puts no request on the port (R222). -/
theorem step_invPending {s t : State} (h : step s = .next t) (hreqs : t.invReqs = s.invReqs)
    (hp : t.invPending = true) : s.invPending = true := by
  rcases step_cases h with ⟨rest, _, rfl⟩ | ⟨rest, _, rfl⟩ | ⟨req, v, rest, _, rfl⟩ | ⟨acc, rest, _, _, rfl⟩ |
    ⟨rest, _, ⟨_, rfl⟩ | ⟨i, hf, e⟩⟩
  · cases hp
  · exact hp
  · rcases State.inverseResponse_cases { s with inputs := rest } req v with ⟨hp', -⟩ | ⟨-, e⟩
    · exact hp'
    · rwa [e] at hp
  · obtain ⟨-, -, hport⟩ := State.access_port { s with inputs := rest } acc
    exact hport.symm.trans hp
  · exact hp
  · rcases exec_next_cases e with ⟨v, fill, w, rfl, -⟩ | ⟨m, rfl, -⟩
    · cases hp
    · rcases State.awaitInverse_cases { s with inputs := rest } m with ⟨hp', -⟩ | ⟨-, e'⟩
      · exact hp'
      · rw [e'] at hreqs
        exact absurd hreqs (Nat.succ_ne_self _)

/-- A request that is not awaited is never awaited again: a new request has a higher number (R222, log entry 8). -/
theorem State.NotAwaited.of_step {req : Nat} {s t : State} (h : step s = .next t) (hs : s.NotAwaited req) :
    t.NotAwaited req := by
  obtain ⟨hle, hne⟩ := hs
  by_cases hreqs : t.invReqs = s.invReqs
  · rw [State.NotAwaited, hreqs]
    exact ⟨hle, fun hp => hne (step_invPending h hreqs hp)⟩
  · obtain ⟨i, m, rest, -, -, -, rfl⟩ := step_sends h hreqs
    exact ⟨Nat.le_succ_of_le hle, fun _ => (Nat.lt_succ_of_le hle).ne⟩

/-- Settles O9: right after the assertion no request sent before is awaited, and no step changes that. -/
theorem lateAnswerIgnored : Obligations.LateAnswerIgnored := by
  intro s u t rest rest' steps req v hin hstep hrun hreq hrsp
  obtain rfl := Host.Outcome.next.inj ((resetAssertion s rest hin).symm.trans hstep)
  obtain ⟨-, hne⟩ : t.NotAwaited req := run_keeps (fun _ _ => State.NotAwaited.of_step) hrun ⟨hreq, nofun⟩
  refine (inverseResponseTaken t req v rest' hrsp).2 ?_
  cases hp : t.invPending
  · exact .inl rfl
  · exact .inr (hne hp)

/-! ### The hazards of a busy machine -/

/-- The offsets of the guarded registers are aligned offsets of the window (R30, R243). -/
theorem guarded_of_off {off : Int} (h : off ∈ [(0x00 : Int), 0x10, 0x18, 0x20, 0x28, 0x30, 0x38]) :
    (regAt off).guarded = true ∧ off % 8 = 0 ∧ 0 ≤ off ∧ off < 0x80 := by
  revert off; decide

/-- Settles O15: the offsets select guarded registers, whose writes a busy machine drops; RES is not guarded and stores
nothing. -/
theorem busyWriteDropped : Obligations.BusyWriteDropped := by
  refine ⟨fun s m off lanes rest hr hb h8 hoff hin => ?_, fun s m lanes rest hr h8 hin => ?_⟩
  · obtain ⟨hg, hmod, h0, h1⟩ := guarded_of_off hoff
    rw [step_write hr hmod h0 h1 h8 hin, State.writeReg_busy (by exact hb) hg]
    rfl
  · rw [step_write hr (by norm_num) (by norm_num) (by norm_num) h8 hin,
      State.writeReg_unguarded (show (regAt 0x40).guarded = false from rfl)]
    rfl

/-- `t` has the operands and the opcode of `s` (R31, R32, R36, R40). -/
def State.SameOperands (s t : State) : Prop :=
  t.a = s.a ∧ t.b = s.b ∧ t.e = s.e ∧ t.n = s.n ∧ t.ninv = s.ninv ∧ t.op = s.op ∧ t.rmodn = s.rmodn

/-- A step from BUSY that is no reset keeps the operands and the opcode, or is the completion of the command in flight
(R216, R243). -/
theorem step_busy_cases {s t : State} (hb : s.phase = .busy) (hreset : ¬ s.resetNext) (h : step s = .next t) :
    s.SameOperands t ∨ ∃ i rest v fill w, s.inFlight i ∧ (i ≠ .toMont → fill = none) ∧
      t = State.complete { s with inputs := rest } v fill w := by
  rcases step_cases h with ⟨rest, hin, _⟩ | ⟨rest, _, rfl⟩ | ⟨req, v, rest, _, rfl⟩ | ⟨acc, rest, _, _, rfl⟩ |
    ⟨rest, _, ⟨hi, _⟩ | ⟨i, hf, e⟩⟩
  · exact absurd ⟨rest, hin⟩ hreset
  · exact .inl ⟨rfl, rfl, rfl, rfl, rfl, rfl, rfl⟩
  · obtain ⟨p, x, e⟩ := State.inverseResponse_frame { s with inputs := rest } req v
    rw [e]
    exact .inl ⟨rfl, rfl, rfl, rfl, rfl, rfl, rfl⟩
  · obtain ⟨d, i, c, r, e⟩ := State.access_busy (s := { s with inputs := rest }) hb acc
    rw [e]
    exact .inl ⟨rfl, rfl, rfl, rfl, rfl, rfl, rfl⟩
  · rw [hb] at hi; cases hi
  · rcases exec_cases i { s with inputs := rest } with ⟨v, fill, w, e', hfill, -⟩ | ⟨m, e', -⟩ <;>
      obtain rfl := Host.Outcome.next.inj (e.symm.trans e')
    · exact .inr ⟨i, rest, v, fill, w, hf, hfill, rfl⟩
    · obtain ⟨g, k, e''⟩ := State.awaitInverse_frame { s with inputs := rest } m
      rw [e'']
      exact .inl ⟨rfl, rfl, rfl, rfl, rfl, rfl, rfl⟩

/-- Settles O29: only a completion writes an operand register, which is RMODN, and only that of TO_MONT fills it. -/
theorem operandsFrozenWhileBusy : Obligations.OperandsFrozenWhileBusy := by
  intro s t hb hreset h
  rcases step_busy_cases hb hreset h with ⟨ha, hb', he, hn, hninv, hop, hrmodn⟩ | ⟨i, rest, v, fill, w, hf, hfill, rfl⟩
  · exact ⟨ha, hb', he, hn, hninv, hop, fun hne => absurd hrmodn hne⟩
  · refine ⟨rfl, rfl, rfl, rfl, rfl, rfl, fun hne => ?_⟩
    obtain rfl : i = .toMont := by
      by_contra hi
      rw [hfill hi] at hne
      exact hne rfl
    exact ⟨hf, rfl⟩

end Sys2Proof.Machine
end
